-- ==== Sys2Proof/Word.lean ====
section
/-! DEFINITION. The bit-vector types of the CHIP-8 CORE (spec 00_scope.md R7, R10). -/

namespace Sys2Proof

/-- A byte: a general register, a timer, a memory cell (R7). -/
abbrev Byte := BitVec 8

/-- A 16-bit word: an instruction, I, PC, a stack entry (R7). -/
abbrev Word := BitVec 16

/-- A 4-bit field: a register index 0x0-0xF, a row count, a keycode (R7, R111). -/
abbrev Nibble := BitVec 4

/-- The 12-bit address field nnn (R111). -/
abbrev Addr := BitVec 12

/-- The index of VF, which is also the flag (R34). -/
abbrev vF : Nibble := 0xF#4

end Sys2Proof
end

