-- ==== Sys2Proof/Config.lean ====
section
/-! DEFINITION. What one machine fixes: the parameters the spec leaves open (00_scope.md R8), the launch values of a
construction (70_reset_and_hazards.md R350), the fixed sizes (00_scope.md R7), and the one free value, RAND. -/

namespace Sys2Proof

/-- LOWNIB_POLICY: what 5xyn and 9xyn with n != 0 do (R121, decision D11). -/
inductive LownibPolicy where
  | fault   -- such a word is a decode error (the default)
  | ignore  -- it executes as 5xy0, 9xy0
  deriving DecidableEq, Repr

/-- ALU_VF_ORDER and SHIFT_VF_ORDER: which of an instruction's two register writes comes first (R221, D12, D13). -/
inductive WriteOrder where
  | flagLast
  | flagFirst
  deriving DecidableEq, Repr

/-- DRAW_COORD_READ: when Dxyn reads V[x] and V[y] (R165, D15). -/
inductive CoordRead where
  | latched
  | live
  deriving DecidableEq, Repr

/-- KEY_COMPARE: how Ex9E and ExA1 compare V[x] with the latched keycode (R207, D18). -/
inductive KeyCompare where
  | full8
  | low4
  deriving DecidableEq, Repr

/-- The open parameters of R8 that a step reads. -/
structure Params where
  lownib     : LownibPolicy
  aluOrder   : WriteOrder
  shiftOrder : WriteOrder
  coordRead  : CoordRead
  keyCompare : KeyCompare
  deriving DecidableEq, Repr

/-- What the host gives to a construction (60_exceptions.md R330, 70_reset_and_hazards.md R350): the parameters, the
80 font bytes FONT_DATA, and the launch values the spec leaves open. `initMem` lists the cells of 0x050-0xFFF whose
INIT_MEM byte is not the model's 00 (log 9); any assignment of bytes to cells can be so listed. -/
structure Launch where
  params  : Params
  font    : List Byte
  initMem : List Host.Cell
  initV   : Vector Byte 16
  initI   : Word
  initDt  : Byte
  initSt  : Byte
  initFb  : BitVec 2048
  deriving DecidableEq, Repr

namespace Config

/-- MEM_SIZE (R7). -/
abbrev memSize : Nat := 4096

/-- PROG_ORIGIN (R7). -/
abbrev progOrigin : Nat := 0x200

/-- STACK_DEPTH (R7, D4). -/
abbrev stackDepth : Nat := 16

/-- INSTR_PER_CYCLE (R7). -/
abbrev instrPerCycle : Nat := 10

/-- FB_CELLS (R7). -/
abbrev fbCells : Nat := 2048

/-- The number of font bytes, NUM_GLYPHS times GLYPH_BYTES (R7). -/
abbrev fontBytes : Nat := 80

/-- RAND (R15, R327, D20): the byte the oracle gives at its n-th draw. FREE VALUE (log 11): no body, so a statement
about it holds whatever the oracle gives. -/
opaque randByte : Nat → Byte

end Config

end Sys2Proof
end

