-- ==== Sys2Proof/Machine/Launch.lean ====
section
/-! DEFINITION. The model's defaults: of the open parameters (00_scope.md R8), of the font (20_memory.md R84), and of the
launch values the spec leaves open (logs 4 to 10). -/

namespace Sys2Proof.Machine

/-- The defaults of R8 for the parameters a step reads (log 4). -/
def defaultParams : Params :=
  { lownib := .fault, aluOrder := .flagLast, shiftOrder := .flagFirst, coordRead := .latched, keyCompare := .full8 }

/-- The default of FONT_DATA: the table of R84, glyph g at 5g..5g+4. PRESUMED (log 10): the spec marks these bytes as
from general knowledge, not in the source. -/
def fontTable : List Byte :=
  [0xF0, 0x90, 0x90, 0x90, 0xF0,  0x20, 0x60, 0x20, 0x20, 0x70] ++
  [0xF0, 0x10, 0xF0, 0x80, 0xF0,  0xF0, 0x10, 0xF0, 0x10, 0xF0] ++
  [0x90, 0x90, 0xF0, 0x10, 0x10,  0xF0, 0x80, 0xF0, 0x10, 0xF0] ++
  [0xF0, 0x80, 0xF0, 0x90, 0xF0,  0xF0, 0x10, 0x20, 0x40, 0x40] ++
  [0xF0, 0x90, 0xF0, 0x90, 0xF0,  0xF0, 0x90, 0xF0, 0x10, 0xF0] ++
  [0xF0, 0x90, 0xF0, 0x90, 0x90,  0xE0, 0x90, 0xE0, 0x90, 0xE0] ++
  [0xF0, 0x80, 0x80, 0x80, 0xF0,  0xE0, 0x90, 0x90, 0x90, 0xE0] ++
  [0xF0, 0x80, 0xF0, 0x80, 0xF0,  0xF0, 0x80, 0xF0, 0x80, 0x80]

/-- What an address that the memory list does not name reads as: the default font below 0x050 (R83, R84), and 00 above.
DESIGN CHOICE for the cells above (log 9): the spec gives INIT_MEM no value. -/
def unlistedByte (a : Nat) : Byte := fontTable.getD a 0x00#8

/-- The launch whose construction is State.reset. DESIGN CHOICE (logs 5 to 9): zero for every INIT value, since the spec
states none. -/
def defaultLaunch : Launch :=
  { params := defaultParams
    font := fontTable
    initMem := []
    initV := Vector.replicate 16 0x00#8
    initI := 0x0000#16
    initDt := 0x00#8
    initSt := 0x00#8
    initFb := 0#2048 }

end Sys2Proof.Machine
end

