-- ==== Sys2Proof/Syntax.lean ====
section
/-! DEFINITION. The 33 instructions, one constructor per row of spec/opcode_table.json (30_encoding.md R112-R120). Each
field has the width of its encoding field, so every operand the encoding admits, and no other, can be written. -/

namespace Sys2Proof

/-- The instructions of R2, with the fields of R111. -/
inductive Instr where
  | cls                               -- 00E0, R163
  | ret                               -- 00EE, R181
  | jp     (nnn : Addr)               -- 1nnn, R182
  | call   (nnn : Addr)               -- 2nnn, R183
  | seImm  (x : Nibble) (nn : Byte)   -- 3xnn, R201
  | sneImm (x : Nibble) (nn : Byte)   -- 4xnn, R202
  | seReg  (x y : Nibble)             -- 5xy0, R203
  | ldImm  (x : Nibble) (nn : Byte)   -- 6xnn, R222
  | addImm (x : Nibble) (nn : Byte)   -- 7xnn, R223
  | ldReg  (x y : Nibble)             -- 8xy0, R224
  | orReg  (x y : Nibble)             -- 8xy1, R225
  | andReg (x y : Nibble)             -- 8xy2, R226
  | xorReg (x y : Nibble)             -- 8xy3, R227
  | addReg (x y : Nibble)             -- 8xy4, R228
  | subReg (x y : Nibble)             -- 8xy5, R229
  | shr    (x y : Nibble)             -- 8xy6, R230: y is kept here and ignored by the meaning (R124)
  | subnReg (x y : Nibble)            -- 8xy7, R231
  | shl    (x y : Nibble)             -- 8xyE, R232: y is kept here and ignored by the meaning (R124)
  | sneReg (x y : Nibble)             -- 9xy0, R204
  | ldI    (nnn : Addr)               -- Annn, R261
  | jpV0   (nnn : Addr)               -- Bnnn, R184
  | rnd    (x : Nibble) (nn : Byte)   -- Cxnn, R233
  | drw    (x y n : Nibble)           -- Dxyn, R164
  | skp    (x : Nibble)               -- Ex9E, R205
  | sknp   (x : Nibble)               -- ExA1, R206
  | ldVxDt (x : Nibble)               -- Fx07, R290
  | ldDtVx (x : Nibble)               -- Fx15, R291
  | ldStVx (x : Nibble)               -- Fx18, R292
  | addI   (x : Nibble)               -- Fx1E, R262
  | ldF    (x : Nibble)               -- Fx29, R263
  | ldB    (x : Nibble)               -- Fx33, R264
  | stRegs (x : Nibble)               -- Fx55, R265
  | ldRegs (x : Nibble)               -- Fx65, R266
  deriving DecidableEq, Repr

end Sys2Proof
end

