-- ==== Sys2Proof/WellFormed.lean ====
section
/-! DEFINITION. Well-formedness of what comes from outside the machine: an instruction, a program image, a launch. -/

namespace Sys2Proof

/-- Every instruction is well formed: each field's width is its type's (R111), and every value of every field is a legal
operand (R113, R123). No wildcard, so that a constructor added later must be looked at. -/
def Instr.wellFormed : Instr → Bool
  | .cls => true
  | .ret => true
  | .jp _ => true
  | .call _ => true
  | .seImm _ _ => true
  | .sneImm _ _ => true
  | .seReg _ _ => true
  | .ldImm _ _ => true
  | .addImm _ _ => true
  | .ldReg _ _ => true
  | .orReg _ _ => true
  | .andReg _ _ => true
  | .xorReg _ _ => true
  | .addReg _ _ => true
  | .subReg _ _ => true
  | .shr _ _ => true
  | .subnReg _ _ => true
  | .shl _ _ => true
  | .sneReg _ _ => true
  | .ldI _ => true
  | .jpV0 _ => true
  | .rnd _ _ => true
  | .drw _ _ _ => true
  | .skp _ => true
  | .sknp _ => true
  | .ldVxDt _ => true
  | .ldDtVx _ => true
  | .ldStVx _ => true
  | .addI _ => true
  | .ldF _ => true
  | .ldB _ => true
  | .stRegs _ => true
  | .ldRegs _ => true

/-- An image fits when 0x200 + L <= 0x1000, that is L <= 3584 (R352, R353). -/
def imageFits (image : List Byte) : Bool :=
  decide (Config.progOrigin + image.length ≤ Config.memSize)

/-- The listed cells of INIT_MEM lie outside the font and inside the memory (R8, R85). -/
def initMemFits (cells : List Host.Cell) : Bool :=
  cells.all fun c => decide (Config.fontBytes ≤ c.1) && decide (c.1 < Config.memSize)

/-- A launch names 80 font bytes, and INIT_MEM bytes for cells it may name. -/
def Launch.wellFormed (l : Launch) : Bool :=
  decide (l.font.length = Config.fontBytes) && initMemFits l.initMem

end Sys2Proof
end

