-- ==== Sys2Proof/Decode.lean ====
section
/-! DEFINITION. The decoder of 30_encoding.md R120, total on words and on byte lists, and the encoder from the formats of
R112. -/

namespace Sys2Proof

/-- Why a word or a byte list is no instruction. The core reports all of them as DECODE_ERROR; the names say which rule
refuses the word (log 19). -/
inductive DecodeError where
  | zeroFamily  -- 0nnn other than 00E0 and 00EE (R115)
  | lowNibble   -- 5xyn or 9xyn with n != 0 under LOWNIB_POLICY = fault (R121)
  | aluSubop    -- 8xyn with n in 8..D, F (R117)
  | keySubop    -- Exnn with nn not 9E, A1 (R118)
  | miscSubop   -- Fxnn with nn not one of the eight (R119)
  | truncated   -- fewer than two bytes: no word (R110)
  deriving DecidableEq, Repr

/-! ## Fields (R111) -/

/-- op = w[15:12]. -/
def opField (w : Word) : Nibble := w.extractLsb' 12 4

/-- x = w[11:8]. -/
def xField (w : Word) : Nibble := w.extractLsb' 8 4

/-- y = w[7:4]. -/
def yField (w : Word) : Nibble := w.extractLsb' 4 4

/-- n = w[3:0]. -/
def nField (w : Word) : Nibble := w.extractLsb' 0 4

/-- nn = w[7:0]. -/
def nnField (w : Word) : Byte := w.extractLsb' 0 8

/-- nnn = w[11:0]. -/
def nnnField (w : Word) : Addr := w.extractLsb' 0 12

/-! ## The decoder (R114-R120) -/

/-- op = 0 (R115). -/
def decodeZero (w : Word) : Except DecodeError Instr :=
  if w = 0x00E0#16 then .ok .cls
  else if w = 0x00EE#16 then .ok .ret
  else .error .zeroFamily

/-- op = 5 and op = 9: the low nibble must be 0 unless LOWNIB_POLICY = ignore (R116, R121). -/
def decodeXy0 (p : LownibPolicy) (w : Word) (i : Instr) : Except DecodeError Instr :=
  if nField w = 0#4 ∨ p = .ignore then .ok i else .error .lowNibble

/-- op = 8, by n (R117). -/
def decodeAlu (w : Word) : Except DecodeError Instr :=
  match (nField w).toNat with
  | 0x0 => .ok (.ldReg (xField w) (yField w))
  | 0x1 => .ok (.orReg (xField w) (yField w))
  | 0x2 => .ok (.andReg (xField w) (yField w))
  | 0x3 => .ok (.xorReg (xField w) (yField w))
  | 0x4 => .ok (.addReg (xField w) (yField w))
  | 0x5 => .ok (.subReg (xField w) (yField w))
  | 0x6 => .ok (.shr (xField w) (yField w))
  | 0x7 => .ok (.subnReg (xField w) (yField w))
  | 0xE => .ok (.shl (xField w) (yField w))
  | _ => .error .aluSubop

/-- op = E, by nn (R118). -/
def decodeKey (w : Word) : Except DecodeError Instr :=
  match (nnField w).toNat with
  | 0x9E => .ok (.skp (xField w))
  | 0xA1 => .ok (.sknp (xField w))
  | _ => .error .keySubop

/-- op = F, by nn (R119). -/
def decodeMisc (w : Word) : Except DecodeError Instr :=
  match (nnField w).toNat with
  | 0x07 => .ok (.ldVxDt (xField w))
  | 0x15 => .ok (.ldDtVx (xField w))
  | 0x18 => .ok (.ldStVx (xField w))
  | 0x1E => .ok (.addI (xField w))
  | 0x29 => .ok (.ldF (xField w))
  | 0x33 => .ok (.ldB (xField w))
  | 0x55 => .ok (.stRegs (xField w))
  | 0x65 => .ok (.ldRegs (xField w))
  | _ => .error .miscSubop

/-- decode(w) of R120: it reads the word and LOWNIB_POLICY, nothing else. -/
def decode (p : LownibPolicy) (w : Word) : Except DecodeError Instr :=
  match (opField w).toNat with
  | 0x0 => decodeZero w
  | 0x1 => .ok (.jp (nnnField w))
  | 0x2 => .ok (.call (nnnField w))
  | 0x3 => .ok (.seImm (xField w) (nnField w))
  | 0x4 => .ok (.sneImm (xField w) (nnField w))
  | 0x5 => decodeXy0 p w (.seReg (xField w) (yField w))
  | 0x6 => .ok (.ldImm (xField w) (nnField w))
  | 0x7 => .ok (.addImm (xField w) (nnField w))
  | 0x8 => decodeAlu w
  | 0x9 => decodeXy0 p w (.sneReg (xField w) (yField w))
  | 0xA => .ok (.ldI (nnnField w))
  | 0xB => .ok (.jpV0 (nnnField w))
  | 0xC => .ok (.rnd (xField w) (nnField w))
  | 0xD => .ok (.drw (xField w) (yField w) (nField w))
  | 0xE => decodeKey w
  | _ => decodeMisc w

/-- A word from its two bytes, the high byte first: R90, R110, R142. -/
def joinBytes (hi lo : Byte) : Word := hi ++ lo

/-- The high byte of a word, stored at the lower address (R110). -/
def hiByte (w : Word) : Byte := w.extractLsb' 8 8

/-- The low byte of a word, stored at the higher address (R110). -/
def loByte (w : Word) : Byte := w.extractLsb' 0 8

/-- Decode the first instruction of a byte list and give the bytes after it. -/
def decodeBytes (p : LownibPolicy) : List Byte → Except DecodeError (Instr × List Byte)
  | hi :: lo :: rest =>
    match decode p (joinBytes hi lo) with
    | .ok i => .ok (i, rest)
    | .error e => .error e
  | _ => .error .truncated

/-- The word whose bits the opcode table numbers w: bits at and above nbits are 0 (the one word is 16 bits). -/
def tableWord (nbits w : Nat) : Word := BitVec.ofNat 16 (w % 2 ^ nbits)

/-- What the decoder reads from a row of spec/opcode_table.json, laid out in memory's byte order (R110), under the default
LOWNIB_POLICY. -/
def decodeTableWord (nbits w : Nat) : Option Instr :=
  match decodeBytes Machine.defaultParams.lownib [hiByte (tableWord nbits w), loByte (tableWord nbits w)] with
  | .ok (i, _) => some i
  | .error _ => none

/-! ## The encoder (R112) -/

/-- Format NNN. -/
def wordNNN (op : Nibble) (nnn : Addr) : Word := op ++ nnn

/-- Formats XNN and XSS. -/
def wordXNN (op x : Nibble) (nn : Byte) : Word := op ++ x ++ nn

/-- Formats XY0, XYS and XYN. -/
def wordXYN (op x y n : Nibble) : Word := op ++ x ++ y ++ n

/-- The word of an instruction (R112, R115-R119). -/
def encode : Instr → Word
  | .cls => 0x00E0#16
  | .ret => 0x00EE#16
  | .jp nnn => wordNNN 0x1#4 nnn
  | .call nnn => wordNNN 0x2#4 nnn
  | .seImm x nn => wordXNN 0x3#4 x nn
  | .sneImm x nn => wordXNN 0x4#4 x nn
  | .seReg x y => wordXYN 0x5#4 x y 0x0#4
  | .ldImm x nn => wordXNN 0x6#4 x nn
  | .addImm x nn => wordXNN 0x7#4 x nn
  | .ldReg x y => wordXYN 0x8#4 x y 0x0#4
  | .orReg x y => wordXYN 0x8#4 x y 0x1#4
  | .andReg x y => wordXYN 0x8#4 x y 0x2#4
  | .xorReg x y => wordXYN 0x8#4 x y 0x3#4
  | .addReg x y => wordXYN 0x8#4 x y 0x4#4
  | .subReg x y => wordXYN 0x8#4 x y 0x5#4
  | .shr x y => wordXYN 0x8#4 x y 0x6#4
  | .subnReg x y => wordXYN 0x8#4 x y 0x7#4
  | .shl x y => wordXYN 0x8#4 x y 0xE#4
  | .sneReg x y => wordXYN 0x9#4 x y 0x0#4
  | .ldI nnn => wordNNN 0xA#4 nnn
  | .jpV0 nnn => wordNNN 0xB#4 nnn
  | .rnd x nn => wordXNN 0xC#4 x nn
  | .drw x y n => wordXYN 0xD#4 x y n
  | .skp x => wordXNN 0xE#4 x 0x9E#8
  | .sknp x => wordXNN 0xE#4 x 0xA1#8
  | .ldVxDt x => wordXNN 0xF#4 x 0x07#8
  | .ldDtVx x => wordXNN 0xF#4 x 0x15#8
  | .ldStVx x => wordXNN 0xF#4 x 0x18#8
  | .addI x => wordXNN 0xF#4 x 0x1E#8
  | .ldF x => wordXNN 0xF#4 x 0x29#8
  | .ldB x => wordXNN 0xF#4 x 0x33#8
  | .stRegs x => wordXNN 0xF#4 x 0x55#8
  | .ldRegs x => wordXNN 0xF#4 x 0x65#8

end Sys2Proof
end

