-- ==== Sys2Proof/Machine/State.lean ====
section
/-! DEFINITION. The state of the CHIP-8 CORE (10_state.md R30), the reasons a step or a host operation can stop, and the
machine right after reset (70_reset_and_hazards.md R350). -/

namespace Sys2Proof.Machine

/-- The values of STATUS.CAUSE (60_exceptions.md R310). -/
inductive Cause where
  | none
  | decodeError
  | stackOverflow
  | stackUnderflow
  | memBoundData
  | memBoundFetch
  deriving DecidableEq, Repr

/-- The record STATUS (10_state.md R51). FAULT_PC, FAULT_WORD and FAULT_ADDR have no value while CAUSE = 0, and after a
fault only the fields R310 names have one (R51, log 12). -/
structure Status where
  halted    : Bool
  cause     : Cause
  faultPc   : Option Word
  faultWord : Option Word
  faultAddr : Option (BitVec 17)
  deriving DecidableEq, Repr

/-- How far the host's one load is (70_reset_and_hazards.md R354, log 18). The model's own. -/
inductive LoadPhase where
  | constructed  -- no load and no cycle yet
  | loaded       -- the one load is done
  | running      -- a cycle has begun
  deriving DecidableEq, Repr

/-- Memory as the listed cells: addresses strictly rising, none listed with the byte an unlisted address reads as. -/
abbrev Memory := List Host.Cell

/-- The state record of R30, with STATUS (R51), `moved` (R57) and `k` (R58). `params`, `draws` and `phase` are the
model's own (logs 4, 11, 18). -/
structure State where
  /-- V0..VF; VF is the flag (R32, R34). -/
  v : Vector Byte 16
  /-- The index register I (R42). -/
  i : Word
  /-- The program counter (R38). -/
  pc : Word
  /-- The call stack, top first (R44). -/
  stack : List Word
  /-- The delay timer (R47). -/
  dt : Byte
  /-- The sound timer (R48). -/
  st : Byte
  /-- The memory (R52). -/
  mem : Memory
  /-- The frame buffer: bit k is cell FB[k], true = on (R53). -/
  fb : BitVec 2048
  /-- The input latch (R55). -/
  latch : Option Nibble
  /-- The status record (R51). -/
  status : Status
  /-- Whether the instruction has written PC (R57). -/
  moved : Bool
  /-- The batch position: instructions completed in the current cycle (R58). -/
  k : Nat
  /-- The open parameters (R8). No step writes them. -/
  params : Params
  /-- How many bytes RAND has given. -/
  draws : Nat
  /-- How far the host's one load is. -/
  phase : LoadPhase
  deriving DecidableEq, Repr

/-- No step stops with a fault: each of the five fatal faults of R310 is TAKEN, as the spec describes its entry (R313): a
next state with STATUS written and the machine halted, on which every later step changes nothing (R149; log 1). So this
type has no constructor. -/
inductive Fault where
  deriving DecidableEq, Repr

/-- Why a host operation is refused, or an instruction has no meaning yet. All of them are safe: the model stops where the
spec says so. -/
inductive Refusal where
  /-- Raised by a refused arm of exec alone: the instruction has no meaning yet. Safe. No arm raises it. -/
  | notModelled (mnemonic : String)
  /-- Raised by the host operation load: the image has more than 3584 bytes (R353). Safe: the spec says the load fails. -/
  | imageTooLong
  /-- Raised by the host operation load: a load was done, or a cycle has begun (R354). Safe: the spec refuses it. -/
  | loadNotAllowed
  /-- Raised by a host operation, a read among them, invoked while a cycle runs (R330, R332, R334). Safe: the spec admits no such time. -/
  | cycleRunning
  deriving DecidableEq, Repr

/-- STATUS after construction: HALTED = 0, CAUSE = 0 (R51). -/
def Status.clear : Status :=
  { halted := false, cause := .none, faultPc := none, faultWord := none, faultAddr := none }

/-- The machine right after construction with the default launch (R350, 10_state.md section 11): PC = 0x200, empty stack,
LATCH = none, STATUS clear, the default font in place (no cell is listed), and for what the spec leaves unspecified the
values of `defaultLaunch` (logs 5 to 10). -/
def State.reset : State :=
  { v := defaultLaunch.initV
    i := defaultLaunch.initI
    pc := 0x200#16
    stack := []
    dt := defaultLaunch.initDt
    st := defaultLaunch.initSt
    mem := []
    fb := defaultLaunch.initFb
    latch := none
    status := Status.clear
    moved := false
    k := 0
    params := defaultLaunch.params
    draws := 0
    phase := .constructed }

end Sys2Proof.Machine
end

