-- ==== Sys2Proof/Machine/Ops.lean ====
section
/-! DEFINITION. The named operations over memory, registers, stack, frame buffer, latch and STATUS, through which every
meaning goes; fault entry (60_exceptions.md R313); and the loop of a multi-byte access (20_memory.md R89). -/

namespace Sys2Proof.Machine

/-! ## Memory (20_memory.md R80-R92) -/

/-- The byte at an address, as listed, else what an unlisted address reads as. -/
def Memory.read : Memory → Nat → Byte
  | [], a => unlistedByte a
  | (b, u) :: m, a => if b = a then u else Memory.read m a

/-- Drop what is listed for an address. -/
def Memory.unlist : Memory → Nat → Memory
  | [], _ => []
  | (b, u) :: m, a => if b = a then Memory.unlist m a else (b, u) :: Memory.unlist m a

/-- List a byte for an address that is not listed, before the first higher address. -/
def Memory.list : Memory → Nat → Byte → Memory
  | [], a, v => [(a, v)]
  | (b, u) :: m, a, v => if a < b then (a, v) :: (b, u) :: m else (b, u) :: Memory.list m a v

/-- Write one cell; the canonical form is kept, so writing what an unlisted address reads as removes the entry. -/
def Memory.write (m : Memory) (a : Nat) (v : Byte) : Memory :=
  if v = unlistedByte a then m.unlist a else (m.unlist a).list a v

/-- Write bytes at a, a+1, ... (the loader, R352; the font, R85). -/
def Memory.writeBlock : Memory → Nat → List Byte → Memory
  | m, _, [] => m
  | m, a, b :: bs => Memory.writeBlock (m.write a b) (a + 1) bs

/-- The canonical form from address lo on. -/
def Memory.wfFrom : Nat → Memory → Bool
  | _, [] => true
  | lo, (a, v) :: m =>
    decide (lo ≤ a) && decide (a < Config.memSize) && decide (v ≠ unlistedByte a) && Memory.wfFrom (a + 1) m

/-- The canonical form: addresses strictly rising and below 4096 (R80), no entry equal to what the address reads as
unlisted. -/
def Memory.wf (m : Memory) : Bool := m.wfFrom 0

/-- MemRead(addr, 1) of R87: none where it raises MemoryBound. -/
def State.memRead (s : State) (a : Nat) : Option Byte :=
  if a ≤ 0xFFF then some (s.mem.read a) else none

/-- MemWrite(addr, 1, v) of R87: none where it raises MemoryBound, and then nothing is written. -/
def State.memWrite (s : State) (a : Nat) (v : Byte) : Option State :=
  if a ≤ 0xFFF then some { s with mem := s.mem.write a v } else none

/-! ## Registers (10_state.md R32-R49) -/

/-- V[j]. -/
def State.getV (s : State) (j : Nibble) : Byte := s.v[j.toNat]

/-- V[j] <- b. No register is hard-wired (R32). -/
def State.setV (s : State) (j : Nibble) (b : Byte) : State := { s with v := s.v.set j.toNat b }

/-- I <- w. -/
def State.setI (s : State) (w : Word) : State := { s with i := w }

/-- PC <- w inside an instruction, which also sets moved (R12, R144). -/
def State.jump (s : State) (w : Word) : State := { s with pc := w, moved := true }

/-- DT <- b. -/
def State.setDt (s : State) (b : Byte) : State := { s with dt := b }

/-- ST <- b. -/
def State.setSt (s : State) (b : Byte) : State := { s with st := b }

/-- LATCH <- l. -/
def State.setLatch (s : State) (l : Option Nibble) : State := { s with latch := l }

/-- Replace the call stack: push gives w :: old, pop the rest (R44). -/
def State.setStack (s : State) (l : List Word) : State := { s with stack := l }

/-- draw_byte() of R15: the oracle's next byte, and the state that has drawn it (R327, log 11). -/
def State.drawByte (s : State) : Byte × State := (Config.randByte s.draws, { s with draws := s.draws + 1 })

/-! ## Frame buffer (41_display.md R161) -/

/-- Every cell off. -/
def State.fbClear (s : State) : State := { s with fb := 0#2048 }

/-- FB[j]. -/
def State.fbRead (s : State) (j : Nat) : Bool := s.fb.getLsbD j

/-- FB[j] <- not FB[j]. -/
def State.fbToggle (s : State) (j : Nat) : State := { s with fb := s.fb ^^^ BitVec.twoPow 2048 j }

/-! ## Faults -/

/-- The 3-bit code of a cause (R310). -/
def Cause.code : Cause → BitVec 3
  | .none => 0
  | .decodeError => 1
  | .stackOverflow => 2
  | .stackUnderflow => 3
  | .memBoundData => 4
  | .memBoundFetch => 5

/-- TAKING A FAULT (R313): HALTED <- 1, CAUSE <- the cause, FAULT_PC <- PC, and FAULT_WORD and FAULT_ADDR where R310
records them. PC and everything else keep their values. There is no return from a fault (R314). -/
def State.raise (s : State) (c : Cause) (word : Option Word) (addr : Option (BitVec 17)) : State :=
  { s with status := { halted := true, cause := c, faultPc := some s.pc, faultWord := word, faultAddr := addr } }

/-- raise MemoryBound(addr) of a data access by the instruction with this word (R87, R310). -/
def State.raiseBound (s : State) (word : Word) (a : Nat) : State :=
  s.raise .memBoundData (some word) (some (BitVec.ofNat 17 a))

/-- A multi-byte access (R89): `body` at offsets k, k+1, ..., each at the exact address base + offset (R88); the first
one whose address is out of range raises MemoryBound, and what was done before it stays. -/
def forOffsets (word : Word) (base : Nat) (body : Nat → State → Option State) : Nat → Nat → State → State
  | 0, _, s => s
  | n + 1, k, s =>
    match body k s with
    | some t => forOffsets word base body n (k + 1) t
    | none => s.raiseBound word (base + k)

/-- Apply a function to the state of a next outcome. -/
def mapNext (f : State → State) : Host.Outcome State Fault Refusal → Host.Outcome State Fault Refusal
  | .next s => .next (f s)
  | .fault r => .fault r
  | .refused r => .refused r

end Sys2Proof.Machine
end

