-- ==== Sys2Proof/Machine/Operands.lean ====
section
/-! DEFINITION. Operand values: extended immediates, targets, glyph addresses, digits, pixel indices, key matches. -/

namespace Sys2Proof.Machine

/-- zext_16(nnn) (30_encoding.md R113). -/
def addr16 (nnn : Addr) : Word := nnn.setWidth 16

/-- The target of Bnnn: u16(nnn + V0), always V0 (42_control_flow.md R184). -/
def indexedTarget (nnn : Addr) (s : State) : Word := addr16 nnn + (s.getV 0x0#4).setWidth 16

/-- The glyph address of Fx29: the exact product of the byte and 5 (45_index_memory.md R263, D17). -/
def glyphAddr (b : Byte) : Word := b.setWidth 16 * 5#16

/-- The digit Fx33 writes at I + k: hundreds, tens, ones (45_index_memory.md R264). -/
def bcdDigit (b : Byte) (k : Nat) : Byte :=
  match k with
  | 0 => BitVec.ofNat 8 (b.toNat / 100)
  | 1 => BitVec.ofNat 8 (b.toNat / 10 % 10)
  | _ => BitVec.ofNat 8 (b.toNat % 10)

/-- The exact address I + k (20_memory.md R88). -/
def State.addrAt (s : State) (k : Nat) : Nat := s.i.toNat + k

/-- idx(X, Y) = (64 Y + X) mod 2048 on exact integers (41_display.md R160, D16). -/
def pixelIndex (X Y : Nat) : Nat := (64 * Y + X) % 2048

/-- The sprite bit of column col: b[7 - col], the most significant bit leftmost (41_display.md R164). -/
def spriteBit (b : Byte) (col : Nat) : Bool := b.getLsbD (7 - col)

/-- key_match(LATCH, v) under KEY_COMPARE (43_skips.md R207, D18). -/
def keyMatch (c : KeyCompare) (latch : Option Nibble) (b : Byte) : Bool :=
  match latch, c with
  | none, _ => false
  | some key, .full8 => decide (b = key.setWidth 8)
  | some key, .low4 => decide (b.setWidth 4 = key)

end Sys2Proof.Machine
end

