-- ==== Sys2Proof/Machine/Flags.lean ====
section
/-! DEFINITION. Every flag computation, and the order of the two writes of a flag-producing instruction (44_alu.md R221).
The flag is VF and stands nowhere else (10_state.md R34). -/

namespace Sys2Proof.Machine

/-- A flag as the byte stored in VF: 0 or 1 (10_state.md R36). -/
def flagByte (c : Bool) : Byte := if c then 1#8 else 0#8

/-- The carry of a + b: 1 if a + b > 0xFF (R228). -/
def carryFlag (a b : Byte) : Bool := decide (0xFF < a.toNat + b.toNat)

/-- NOT borrow of a - b: 1 if a >= b (R229, R231). -/
def notBorrow (a b : Byte) : Bool := decide (b.toNat ≤ a.toNat)

/-- The bit a right shift drops (R230). -/
def lowBit (a : Byte) : Bool := a.getLsbD 0

/-- The bit a left shift drops (R232). -/
def highBit (a : Byte) : Bool := a.getLsbD 7

/-- V[x] <- r and VF <- f, in the order ALU_VF_ORDER gives (R221, R228, R229, R231). -/
def State.writeResult (s : State) (o : WriteOrder) (x : Nibble) (r : Byte) (f : Bool) : State :=
  match o with
  | .flagLast => (s.setV x r).setV vF (flagByte f)
  | .flagFirst => (s.setV vF (flagByte f)).setV x r

/-- A shift of V[x], in the order SHIFT_VF_ORDER gives: under flag_first the shift reads V[x] after the flag is written
(R221, R230, R232). -/
def State.writeShift (s : State) (o : WriteOrder) (x : Nibble) (out : Byte → Bool) (sh : Byte → Byte) : State :=
  match o with
  | .flagFirst =>
    let s1 := s.setV vF (flagByte (out (s.getV x)))
    s1.setV x (sh (s1.getV x))
  | .flagLast => (s.setV x (sh (s.getV x))).setV vF (flagByte (out (s.getV x)))

end Sys2Proof.Machine
end

