-- ==== Sys2Proof/Machine/Alu.lean ====
section
/-! DEFINITION. 6xnn, 7xnn, 8xy0-8xy7, 8xyE, Cxnn: register loads, arithmetic, logic and the random byte (44_alu.md). -/

namespace Sys2Proof.Machine

/-- 6xnn, LD (R222). -/
def execLdImm (x : Nibble) (nn : Byte) (s : State) : Host.Outcome State Fault Refusal := .next (s.setV x nn)

/-- 7xnn, ADD (R223): wraps modulo 256, writes no flag. -/
def execAddImm (x : Nibble) (nn : Byte) (s : State) : Host.Outcome State Fault Refusal :=
  .next (s.setV x (s.getV x + nn))

/-- 8xy0, LD (R224). -/
def execLdReg (x y : Nibble) (s : State) : Host.Outcome State Fault Refusal := .next (s.setV x (s.getV y))

/-- 8xy1, OR (R225). -/
def execOrReg (x y : Nibble) (s : State) : Host.Outcome State Fault Refusal := .next (s.setV x (s.getV x ||| s.getV y))

/-- 8xy2, AND (R226). -/
def execAndReg (x y : Nibble) (s : State) : Host.Outcome State Fault Refusal := .next (s.setV x (s.getV x &&& s.getV y))

/-- 8xy3, XOR (R227). -/
def execXorReg (x y : Nibble) (s : State) : Host.Outcome State Fault Refusal := .next (s.setV x (s.getV x ^^^ s.getV y))

/-- 8xy4, ADD with carry out (R228). -/
def execAddReg (x y : Nibble) (s : State) : Host.Outcome State Fault Refusal :=
  .next (s.writeResult s.params.aluOrder x (s.getV x + s.getV y) (carryFlag (s.getV x) (s.getV y)))

/-- 8xy5, SUB: V[x] - V[y] (R229). -/
def execSubReg (x y : Nibble) (s : State) : Host.Outcome State Fault Refusal :=
  .next (s.writeResult s.params.aluOrder x (s.getV x - s.getV y) (notBorrow (s.getV x) (s.getV y)))

/-- 8xy6, SHR: V[x] shifted right by one; y is ignored (R230, R124). -/
def execShr (x _y : Nibble) (s : State) : Host.Outcome State Fault Refusal :=
  .next (s.writeShift s.params.shiftOrder x lowBit (fun a => a >>> 1))

/-- 8xy7, SUBN: V[y] - V[x] (R231). -/
def execSubnReg (x y : Nibble) (s : State) : Host.Outcome State Fault Refusal :=
  .next (s.writeResult s.params.aluOrder x (s.getV y - s.getV x) (notBorrow (s.getV y) (s.getV x)))

/-- 8xyE, SHL: V[x] shifted left by one; y is ignored (R232, R124). -/
def execShl (x _y : Nibble) (s : State) : Host.Outcome State Fault Refusal :=
  .next (s.writeShift s.params.shiftOrder x highBit (fun a => a <<< 1))

/-- Cxnn, RND (R233): one byte drawn, under the mask nn. -/
def execRnd (x : Nibble) (nn : Byte) (s : State) : Host.Outcome State Fault Refusal :=
  .next (s.drawByte.2.setV x (s.drawByte.1 &&& nn))

end Sys2Proof.Machine
end

