-- ==== Sys2Proof/Machine/Control.lean ====
section
/-! DEFINITION. 00EE, 1nnn, 2nnn, Bnnn: control transfer and the call stack (42_control_flow.md). -/

namespace Sys2Proof.Machine

/-- 00EE, RET (R181): STACK_UNDERFLOW on an empty stack, else PC <- pop, used as it is. -/
def execRet (s : State) : Host.Outcome State Fault Refusal :=
  match s.stack with
  | [] => .next (s.raise .stackUnderflow (some (encode .ret)) none)
  | a :: rest => .next ((s.setStack rest).jump a)

/-- 1nnn, JP (R182). -/
def execJp (nnn : Addr) (s : State) : Host.Outcome State Fault Refusal := .next (s.jump (addr16 nnn))

/-- 2nnn, CALL (R183): STACK_OVERFLOW when 16 entries stand on the stack, else push u16(PC + 2) and jump. -/
def execCall (nnn : Addr) (s : State) : Host.Outcome State Fault Refusal :=
  if Config.stackDepth ≤ s.stack.length then .next (s.raise .stackOverflow (some (encode (.call nnn))) none)
  else .next ((s.setStack ((s.pc + 2#16) :: s.stack)).jump (addr16 nnn))

/-- Bnnn, JP V0 (R184). -/
def execJpV0 (nnn : Addr) (s : State) : Host.Outcome State Fault Refusal := .next (s.jump (indexedTarget nnn s))

end Sys2Proof.Machine
end

