-- ==== Sys2Proof/Machine/Display.lean ====
section
/-! DEFINITION. 00E0 and Dxyn: the sprite-drawing unit (41_display.md). -/

namespace Sys2Proof.Machine

/-- One set sprite bit meets cell j: a collision sets VF to 1, and the cell is toggled (R164). -/
def plot (j : Nat) (s : State) : State :=
  if s.fbRead j then (s.setV vF 1#8).fbToggle j else s.fbToggle j

/-- The column origin at a set bit: read before VF was cleared, or now, as DRAW_COORD_READ says (R165). -/
def coordNow (latched : Nat) (x : Nibble) (s : State) : Nat :=
  match s.params.coordRead with
  | .latched => latched
  | .live => (s.getV x).toNat

/-- One sprite bit (R164): a clear bit leaves its pixel. -/
def drawBit (x y : Nibble) (cx cy row : Nat) (b : Byte) (s : State) (col : Nat) : State :=
  if spriteBit b col then plot (pixelIndex (coordNow cx x s + col) (coordNow cy y s + row)) s else s

/-- One sprite row: columns 0 to 7, the most significant bit first (R164). -/
def drawRow (x y : Nibble) (cx cy row : Nat) (b : Byte) (s : State) : State :=
  [0, 1, 2, 3, 4, 5, 6, 7].foldl (drawBit x y cx cy row b) s

/-- Row `row`: read the byte at I + row, then draw it (R164); none where the read raises MemoryBound (R168). -/
def drawRowAt (x y : Nibble) (cx cy : Nat) (row : Nat) (s : State) : Option State :=
  (s.memRead (s.addrAt row)).map fun b => drawRow x y cx cy row b s

/-- 00E0, CLS (R163). -/
def execCls (s : State) : Host.Outcome State Fault Refusal := .next s.fbClear

/-- Dxyn, DRW (R164). -/
def execDrw (x y n : Nibble) (s : State) : Host.Outcome State Fault Refusal :=
  .next (forOffsets (encode (.drw x y n)) s.i.toNat (drawRowAt x y (s.getV x).toNat (s.getV y).toNat) n.toNat 0
    (s.setV vF 0#8))

end Sys2Proof.Machine
end

