-- ==== Sys2Proof/Machine/IndexMem.lean ====
section
/-! DEFINITION. Annn, Fx1E, Fx29, Fx33, Fx55, Fx65: the index register and the memory transfers (45_index_memory.md). -/

namespace Sys2Proof.Machine

/-- Annn, LD I (R261). -/
def execLdI (nnn : Addr) (s : State) : Host.Outcome State Fault Refusal := .next (s.setI (addr16 nnn))

/-- Fx1E, ADD I (R262): wraps at 16 bits, VF untouched, nothing checked. -/
def execAddI (x : Nibble) (s : State) : Host.Outcome State Fault Refusal :=
  .next (s.setI (s.i + (s.getV x).setWidth 16))

/-- Fx29, LD F (R263). -/
def execLdF (x : Nibble) (s : State) : Host.Outcome State Fault Refusal := .next (s.setI (glyphAddr (s.getV x)))

/-- Fx33, LD B (R264): V[x] is read once, before any write. -/
def execLdB (x : Nibble) (s : State) : Host.Outcome State Fault Refusal :=
  .next (forOffsets (encode (.ldB x)) s.i.toNat (fun k t => t.memWrite (t.addrAt k) (bcdDigit (s.getV x) k)) 3 0 s)

/-- Fx55, LD [I] (R265): V0..V[x] stored at I.. -/
def execStRegs (x : Nibble) (s : State) : Host.Outcome State Fault Refusal :=
  .next (forOffsets (encode (.stRegs x)) s.i.toNat
    (fun k t => t.memWrite (t.addrAt k) (t.getV (BitVec.ofNat 4 k))) (x.toNat + 1) 0 s)

/-- Fx65, LD Vx, [I] (R266): V0..V[x] loaded from I.. -/
def execLdRegs (x : Nibble) (s : State) : Host.Outcome State Fault Refusal :=
  .next (forOffsets (encode (.ldRegs x)) s.i.toNat
    (fun k t => (t.memRead (t.addrAt k)).map fun b => t.setV (BitVec.ofNat 4 k) b) (x.toNat + 1) 0 s)

end Sys2Proof.Machine
end

