-- ==== Sys2Proof/Machine/Skips.lean ====
section
/-! DEFINITION. 3xnn, 4xnn, 5xy0, 9xy0, Ex9E, ExA1: the conditional skips (43_skips.md). -/

namespace Sys2Proof.Machine

/-- A skip (R200): when the condition holds, PC <- u16(PC + 4); else nothing is written. -/
def State.skipIf (s : State) (c : Bool) : State := if c then s.jump (s.pc + 4#16) else s

/-- Whether V[x] matches the latched key (R207). -/
def State.keyHit (s : State) (x : Nibble) : Bool := keyMatch s.params.keyCompare s.latch (s.getV x)

/-- 3xnn, SE (R201). -/
def execSeImm (x : Nibble) (nn : Byte) (s : State) : Host.Outcome State Fault Refusal :=
  .next (s.skipIf (decide (s.getV x = nn)))

/-- 4xnn, SNE (R202). -/
def execSneImm (x : Nibble) (nn : Byte) (s : State) : Host.Outcome State Fault Refusal :=
  .next (s.skipIf (decide (s.getV x ≠ nn)))

/-- 5xy0, SE (R203). -/
def execSeReg (x y : Nibble) (s : State) : Host.Outcome State Fault Refusal :=
  .next (s.skipIf (decide (s.getV x = s.getV y)))

/-- 9xy0, SNE (R204). -/
def execSneReg (x y : Nibble) (s : State) : Host.Outcome State Fault Refusal :=
  .next (s.skipIf (decide (s.getV x ≠ s.getV y)))

/-- Ex9E, SKP (R205): a taken skip consumes the key. -/
def execSkp (x : Nibble) (s : State) : Host.Outcome State Fault Refusal :=
  if s.keyHit x then .next ((s.jump (s.pc + 4#16)).setLatch none) else .next s

/-- ExA1, SKNP (R206): the latch is never changed. -/
def execSknp (x : Nibble) (s : State) : Host.Outcome State Fault Refusal :=
  .next (s.skipIf (!s.keyHit x))

end Sys2Proof.Machine
end

