-- ==== Sys2Proof/Machine/Timers.lean ====
section
/-! DEFINITION. Fx07, Fx15, Fx18 and the end-of-cycle tick (46_timers.md). -/

namespace Sys2Proof.Machine

/-- Fx07, LD Vx, DT (R290). -/
def execLdVxDt (x : Nibble) (s : State) : Host.Outcome State Fault Refusal := .next (s.setV x s.dt)

/-- Fx15, LD DT, Vx (R291). -/
def execLdDtVx (x : Nibble) (s : State) : Host.Outcome State Fault Refusal := .next (s.setDt (s.getV x))

/-- Fx18, LD ST, Vx (R292). -/
def execLdStVx (x : Nibble) (s : State) : Host.Outcome State Fault Refusal := .next (s.setSt (s.getV x))

/-- One timer's decrement, saturating at zero (R293). -/
def tickByte (b : Byte) : Byte := if b = 0#8 then b else b - 1#8

/-- Tick() (R293). -/
def State.tick (s : State) : State := (s.setDt (tickByte s.dt)).setSt (tickByte s.st)

end Sys2Proof.Machine
end

