-- ==== Sys2Proof/Machine/Engine.lean ====
section
/-! DEFINITION. The parts of the instruction step and of the engine cycle around execute (40_engine_cycle.md). -/

namespace Sys2Proof.Machine

/-- The start of a step: moved <- false (R140). A cycle has begun, so no load may follow (R354). -/
def State.beginStep (s : State) : State := { s with moved := false, phase := .running }

/-- The fetch (R141, R142): none where PC > 0xFFE, else the two bytes at PC, big-endian. -/
def State.fetchWord (s : State) : Option Word :=
  if s.pc.toNat ≤ 0xFFE then some (joinBytes (s.mem.read s.pc.toNat) (s.mem.read (s.pc.toNat + 1))) else none

/-- raise MemoryBoundFetch(PC) (R141, R310): no word is recorded. -/
def State.raiseFetch (s : State) : State := s.raise .memBoundFetch none none

/-- raise DecodeError(w, PC) (R143, R310). -/
def State.raiseDecode (s : State) (w : Word) : State := s.raise .decodeError (some w) none

/-- The advance (R145), which a raise leaves out (R14): PC <- u16(PC + 2) unless moved. -/
def State.advance (s : State) : State :=
  if s.status.halted || s.moved then s else { s with pc := s.pc + 2#16 }

/-- The batch (R147, R148): a step that did not fault is counted; the tenth ends the cycle with the tick. -/
def State.countStep (s : State) : State :=
  if s.status.halted then s
  else if Config.instrPerCycle ≤ s.k + 1 then { s with k := 0 }.tick
  else { s with k := s.k + 1 }

end Sys2Proof.Machine
end

