-- ==== Sys2Proof/Machine/Step.lean ====
section
/-! DEFINITION. One instruction step (40_engine_cycle.md R140), its place in the batch (R147), and the state in which the
next step runs a given instruction. -/

namespace Sys2Proof.Machine

/-- Step() of R140, from a state that is not halted. -/
def instrStep (s : State) : Host.Outcome State Fault Refusal :=
  match s.beginStep.fetchWord with
  | none => .next s.beginStep.raiseFetch
  | some w =>
    match decode s.params.lownib w with
    | .error _ => .next (s.beginStep.raiseDecode w)
    | .ok i => mapNext State.advance (exec i s.beginStep)

/-- One step of the machine: nothing changes once it is halted (R149); else one instruction step, counted in its batch, the
tenth followed by the tick (R147, R148). -/
def step (s : State) : Host.Outcome State Fault Refusal :=
  if s.status.halted then .next s else mapNext State.countStep (instrStep s)

/-- s with the instruction of bits w (those at and above nbits zero) stored where step fetches: its high byte at PC, its low
byte at PC + 1 (R110, R142). It stands for the host's load of a program (R352; log 16). A cell that does not exist is not
written (log 17). -/
def State.withFetchWord (s : State) (nbits w : Nat) : State :=
  if s.pc.toNat ≤ 0xFFE then
    { s with mem := s.mem.writeBlock s.pc.toNat [hiByte (tableWord nbits w), loByte (tableWord nbits w)] }
  else s

end Sys2Proof.Machine
end

