-- ==== Sys2Proof/Machine/HostOps.lean ====
section
/-! DEFINITION. What the host can do to the core, and nothing more (60_exceptions.md R330-R335). -/

namespace Sys2Proof.Machine

/-- No cycle runs: the batch is at its start, or a fault has ended it (R148, R330; log 3). -/
def State.betweenCycles (s : State) : Bool := s.status.halted || decide (s.k = 0)

/-- Write INIT_MEM's listed bytes (R85). -/
def writeCells (m : Memory) (cells : List Host.Cell) : Memory :=
  cells.foldl (fun acc c => acc.write c.1 c.2) m

/-- Construction from a launch (R350): every piece of state at the value of 10_state.md section 11. -/
def construct (l : Launch) : State :=
  { v := l.initV
    i := l.initI
    pc := 0x200#16
    stack := []
    dt := l.initDt
    st := l.initSt
    mem := writeCells (Memory.writeBlock [] 0 l.font) l.initMem
    fb := l.initFb
    latch := none
    status := Status.clear
    moved := false
    k := 0
    params := l.params
    draws := 0
    phase := .constructed }

/-- load(image) (R352-R354): one load, before the first cycle; an image that overruns the memory is rejected. -/
def load (image : List Byte) (s : State) : Host.Outcome State Fault Refusal :=
  if s.phase ≠ .constructed then .refused .loadNotAllowed
  else if imageFits image = false then .refused .imageTooLong
  else .next { s with mem := s.mem.writeBlock Config.progOrigin image, phase := .loaded }

/-- press(k) (R322, R330): LATCH <- some(k), replacing a key already latched. -/
def press (key : Nibble) (s : State) : Host.Outcome State Fault Refusal :=
  if s.betweenCycles then .next (s.setLatch (some key)) else .refused .cycleRunning

/-- The host's clear of the latch (R322, R330). -/
def clearLatch (s : State) : Host.Outcome State Fault Refusal :=
  if s.betweenCycles then .next (s.setLatch none) else .refused .cycleRunning

/-- Up to n steps, stopping at a fatal fault (R148). -/
def batch : Nat → State → Host.Outcome State Fault Refusal
  | 0, s => .next s
  | n + 1, s =>
    match step s with
    | .next t => if t.status.halted then .next t else batch n t
    | .fault r => .fault r
    | .refused r => .refused r

/-- Cycle() (R147): nothing on a halted machine (R149), else ten steps, the tenth with the tick. -/
def cycle (s : State) : Host.Outcome State Fault Refusal :=
  if s.status.halted then .next s
  else if s.k = 0 then batch Config.instrPerCycle s
  else .refused .cycleRunning

/-- A read by the host, taken only while no cycle runs (R330, R334): what it gets back. The machine is not changed. -/
def hostRead {α : Type} (view : State → α) (s : State) : Except Refusal α :=
  if s.betweenCycles then .ok (view s) else .error .cycleRunning

/-- read frame buffer (R330): FB[0..2047], bit k being FB[k]. -/
def readFb (s : State) : Except Refusal (BitVec 2048) := hostRead State.fb s

/-- The presentation read of the pixel at column X, row Y: FB[64 Y + X] (R321). -/
def readPixel (X : BitVec 6) (Y : BitVec 5) (s : State) : Except Refusal Bool :=
  hostRead (fun t => t.fbRead (64 * Y.toNat + X.toNat)) s

/-- read ST (R330, R334). -/
def readSt (s : State) : Except Refusal Byte := hostRead State.st s

/-- read STATUS (R330, R334). -/
def readStatus (s : State) : Except Refusal Status := hostRead State.status s

/-- The state after a read: the same, or the read's refusal. -/
def afterRead {α : Type} (answer : Except Refusal α) (s : State) : Host.Outcome State Fault Refusal :=
  match answer with
  | .ok _ => .next s
  | .error r => .refused r

/-- What the host does after construction, the rows of R330. -/
inductive HostAction where
  | load (image : List Byte)
  | press (key : Nibble)
  | clearLatch
  | cycle
  | readFb
  | readSt
  | readStatus
  deriving DecidableEq, Repr

/-- One host interaction. -/
def hostStep (a : HostAction) (s : State) : Host.Outcome State Fault Refusal :=
  match a with
  | .load image => load image s
  | .press key => press key s
  | .clearLatch => clearLatch s
  | .cycle => cycle s
  | .readFb => afterRead (readFb s) s
  | .readSt => afterRead (readSt s) s
  | .readStatus => afterRead (readStatus s) s

/-- A run (R331, R335): a sequence of host interactions. -/
def hostRun : List HostAction → State → Host.Outcome State Fault Refusal
  | [], s => .next s
  | a :: rest, s =>
    match hostStep a s with
    | .next t => hostRun rest t
    | .fault r => .fault r
    | .refused r => .refused r

end Sys2Proof.Machine
end

