-- ==== Sys2Proof/Safety.lean ====
section
/-! DEFINITION. The terms the claims use: the invariants, what "unchanged" means, and the spec's tables and pseudocode
that claims compare the machine with. -/

namespace Sys2Proof.Machine

/-! ## Invariants -/

/-- STATUS is coherent: not halted means CAUSE = 0 and no value in the fault fields, halted means a cause of R310 with
exactly the fields R310 records for it (10_state.md R51). -/
def Status.wf (q : Status) : Bool :=
  match q.cause with
  | .none => !q.halted && q.faultPc.isNone && q.faultWord.isNone && q.faultAddr.isNone
  | .decodeError => q.halted && q.faultPc.isSome && q.faultWord.isSome && q.faultAddr.isNone
  | .stackOverflow => q.halted && q.faultPc.isSome && q.faultWord.isSome && q.faultAddr.isNone
  | .stackUnderflow => q.halted && q.faultPc.isSome && decide (q.faultWord = some 0x00EE#16) && q.faultAddr.isNone
  | .memBoundData =>
    q.halted && q.faultPc.isSome && q.faultWord.isSome && q.faultAddr.any (fun a => decide (0xFFF < a.toNat))
  | .memBoundFetch =>
    q.halted && q.faultPc.any (fun a => decide (0xFFE < a.toNat)) && q.faultWord.isNone && q.faultAddr.isNone

/-- What every reachable state has: canonical memory, at most 16 stack entries (R45), a batch position below 10 between
steps (R58), a coherent STATUS (R51). -/
abbrev State.Inv (s : State) : Prop :=
  s.mem.wf = true ∧ s.stack.length ≤ Config.stackDepth ∧ s.k < Config.instrPerCycle ∧ s.status.wf = true

/-- PC never exceeds 0x10FE (R40), and no return address exceeds 0x1000 (R181, R183). -/
abbrev State.PcBound (s : State) : Prop :=
  s.pc.toNat ≤ 0x10FE ∧ ∀ a ∈ s.stack, a.toNat ≤ 0x1000

/-- A run ends badly at the first state that is halted (60_exceptions.md R335). -/
def State.endsBadly (s : State) : Bool := s.status.halted

/-! ## Unchanged -/

/-- Every byte of memory reads as before. -/
def SameMemory (s t : State) : Prop := ∀ a, t.memRead a = s.memRead a

/-- Every byte outside lo .. lo + n - 1 reads as before. -/
def SameMemoryOutside (lo n : Nat) (s t : State) : Prop := ∀ a, a < lo ∨ lo + n ≤ a → t.memRead a = s.memRead a

/-! ## The spec's tables, for claims -/

/-- The word w encodes i, and decodes to it under either LOWNIB_POLICY. -/
def EncodedAs (w : Word) (i : Instr) : Prop := encode i = w ∧ ∀ p, decode p w = .ok i

/-- The bytes at PC and PC + 1 are those of a word that decodes to i. -/
def State.AboutToRun (s : State) (i : Instr) : Prop :=
  ∃ hi lo : Byte, s.memRead s.pc.toNat = some hi ∧ s.memRead (s.pc.toNat + 1) = some lo ∧
    decode s.params.lownib (hi ++ lo) = .ok i

/-- The third column of the table of 10_state.md R33: instruction i may write V[j]. -/
def mayWriteV (i : Instr) (j : Nibble) : Bool :=
  match i with
  | .ldImm x _ => decide (j = x)
  | .addImm x _ => decide (j = x)
  | .ldReg x _ => decide (j = x)
  | .orReg x _ => decide (j = x)
  | .andReg x _ => decide (j = x)
  | .xorReg x _ => decide (j = x)
  | .addReg x _ => decide (j = x ∨ j = vF)
  | .subReg x _ => decide (j = x ∨ j = vF)
  | .subnReg x _ => decide (j = x ∨ j = vF)
  | .shr x _ => decide (j = x ∨ j = vF)
  | .shl x _ => decide (j = x ∨ j = vF)
  | .rnd x _ => decide (j = x)
  | .drw _ _ _ => decide (j = vF)
  | .ldVxDt x => decide (j = x)
  | .ldRegs x => decide (j.toNat ≤ x.toNat)
  | _ => false

/-- Whether the condition of a skip holds (43_skips.md R201-R207); false for every other instruction. -/
def skipTaken (i : Instr) (s : State) : Bool :=
  match i with
  | .seImm x nn => decide (s.getV x = nn)
  | .sneImm x nn => decide (s.getV x ≠ nn)
  | .seReg x y => decide (s.getV x = s.getV y)
  | .sneReg x y => decide (s.getV x ≠ s.getV y)
  | .skp x => keyMatch s.params.keyCompare s.latch (s.getV x)
  | .sknp x => !keyMatch s.params.keyCompare s.latch (s.getV x)
  | _ => false

/-- The instructions that assign PC (40_engine_cycle.md R144): 00EE, 1nnn, 2nnn, Bnnn and a taken skip. -/
def assignsPc (i : Instr) (s : State) : Bool :=
  match i with
  | .ret => true
  | .jp _ => true
  | .call _ => true
  | .jpV0 _ => true
  | _ => skipTaken i s

/-- PC after an instruction that does not fault (10_state.md R39), as a number. -/
def pcAfter (i : Instr) (s : State) : Nat :=
  match i with
  | .jp nnn => nnn.toNat
  | .call nnn => nnn.toNat
  | .jpV0 nnn => nnn.toNat + (s.getV 0x0#4).toNat
  | .ret => (s.stack.headD 0x0000#16).toNat
  | _ => if skipTaken i s then s.pc.toNat + 4 else s.pc.toNat + 2

/-- The cause an instruction's own fault has (60_exceptions.md R310, R311); none for an instruction that raises nothing of
its own. -/
def ownFault (i : Instr) : Option Cause :=
  match i with
  | .ret => some .stackUnderflow
  | .call _ => some .stackOverflow
  | .drw _ _ _ => some .memBoundData
  | .ldB _ => some .memBoundData
  | .stRegs _ => some .memBoundData
  | .ldRegs _ => some .memBoundData
  | _ => none

/-- STATUS after a MemoryBound fault of the instruction with this word at this PC, whose accesses start at I: the first
out-of-range address is 0x1000, or I if that is larger (R87, R89, R310). -/
def boundStatus (pc i : Word) (word : Word) : Status :=
  { halted := true, cause := .memBoundData, faultPc := some pc, faultWord := some word
    faultAddr := some (BitVec.ofNat 17 (max i.toNat 0x1000)) }

/-- The registers after a result r to V[x] and a flag f to VF, in the two orders of 44_alu.md R221. -/
def resultV (o : WriteOrder) (x : Nibble) (r f : Byte) (s : State) (j : Nibble) : Byte :=
  match o with
  | .flagLast => if j = vF then f else if j = x then r else s.getV j
  | .flagFirst => if j = x then r else if j = vF then f else s.getV j

/-- Some set bit of the n-row sprite at I, drawn from column cx and row cy, falls on cell j (41_display.md R160, R164). -/
def SpriteHits (s : State) (cx cy n j : Nat) : Prop :=
  ∃ row col : Nat, row < n ∧ col < 8 ∧ (s.mem.read (s.i.toNat + row)).getLsbD (7 - col) = true ∧
    (64 * (cy + row) + (cx + col)) % 2048 = j

/-- As SpriteHits, of the bits number lo to hi - 1 in the order they are drawn: row by row, the most significant bit first,
the bit of row r and column c having number 8 r + c (41_display.md R164). -/
def SpriteHitsBetween (s : State) (cx cy n lo hi j : Nat) : Prop :=
  ∃ row col : Nat, row < n ∧ col < 8 ∧ lo ≤ 8 * row + col ∧ 8 * row + col < hi ∧
    (s.mem.read (s.i.toNat + row)).getLsbD (7 - col) = true ∧ (64 * (cy + row) + (cx + col)) % 2048 = j

/-- The coordinate V[x] gives a live draw while VF holds f, which the draw itself has written (41_display.md R165). -/
def liveCoord (s : State) (x : Nibble) (f : Nat) : Nat := if x = vF then f else (s.getV x).toNat

/-- Cycle() of 40_engine_cycle.md R147 as the spec writes it, the loop counter outside the state: n more steps, stopping
at a fault, then the tick. -/
def cycleAsWritten : Nat → State → Host.Outcome State Fault Refusal
  | 0, s => .next s.tick
  | n + 1, s =>
    match instrStep s with
    | .next t => if t.status.halted then .next t else cycleAsWritten n t
    | .fault r => .fault r
    | .refused r => .refused r

end Sys2Proof.Machine
end

