-- ==== Sys2Proof/Certificates/Slice0/Obligations.lean ====
section
/-! DEFINITION. The statements for the provers. Each says what the spec's rule says, of every state; basis, rules and
quotes stand in OBLIGATIONS.json. A statement that rests on a decision the spec marks as its own, or on a choice of the
model, says so. -/

open Sys2Proof Sys2Proof.Machine

/-! ## Encoding -/

/-- Words written out from 30_encoding.md, one or two per family, decode to the instruction they stand for. -/
def Obligations.KnownWordsDecode : Prop :=
  decode .fault 0x00E0#16 = .ok .cls ∧
  decode .fault 0xD125#16 = .ok (.drw 0x1#4 0x2#4 0x5#4) ∧
  decode .fault 0x00EE#16 = .ok .ret ∧
  decode .fault 0x2ABC#16 = .ok (.call 0xABC#12) ∧
  decode .fault 0xB123#16 = .ok (.jpV0 0x123#12) ∧
  decode .fault 0x3A7F#16 = .ok (.seImm 0xA#4 0x7F#8) ∧
  decode .fault 0x9AB0#16 = .ok (.sneReg 0xA#4 0xB#4) ∧
  decode .fault 0xE5A1#16 = .ok (.sknp 0x5#4) ∧
  decode .fault 0x8AB5#16 = .ok (.subReg 0xA#4 0xB#4) ∧
  decode .fault 0x8ABE#16 = .ok (.shl 0xA#4 0xB#4) ∧
  decode .fault 0xF41E#16 = .ok (.addI 0x4#4) ∧
  decode .fault 0xF765#16 = .ok (.ldRegs 0x7#4) ∧
  decode .fault 0xF315#16 = .ok (.ldDtVx 0x3#4) ∧
  decode .fault 0xF00A#16 = .error .miscSubop ∧
  decode .fault 0x0123#16 = .error .zeroFamily

/-- Every well-formed instruction, with every operand at every value, comes back from its word, under either
LOWNIB_POLICY. -/
def Obligations.DecodeInvertsEncode : Prop :=
  ∀ (p : LownibPolicy) (i : Instr), i.wellFormed = true → decode p (encode i) = .ok i

/-- Under LOWNIB_POLICY = fault (the spec's decision D11) no bit of a legal word is lost: the instruction it decodes to
encodes to that word. -/
def Obligations.EncodeInvertsDecode : Prop :=
  ∀ (w : Word) (i : Instr), decode .fault w = .ok i → encode i = w

/-- The illegal words under LOWNIB_POLICY = fault are those of the table of R122 and no others (decision D11 for the
second row). -/
def Obligations.IllegalWordsExactly : Prop :=
  ∀ w : Word, (∃ e, decode .fault w = .error e) ↔
    (w.toNat / 4096 = 0x0 ∧ w.toNat ≠ 0x00E0 ∧ w.toNat ≠ 0x00EE) ∨
    ((w.toNat / 4096 = 0x5 ∨ w.toNat / 4096 = 0x9) ∧ w.toNat % 16 ≠ 0) ∨
    (w.toNat / 4096 = 0x8 ∧ 8 ≤ w.toNat % 16 ∧ w.toNat % 16 ≠ 0xE) ∨
    (w.toNat / 4096 = 0xE ∧ w.toNat % 256 ≠ 0x9E ∧ w.toNat % 256 ≠ 0xA1) ∨
    (w.toNat / 4096 = 0xF ∧ w.toNat % 256 ∉ [0x07, 0x15, 0x18, 0x1E, 0x29, 0x33, 0x55, 0x65])

/-- 5xyn and 9xyn with n != 0 (the spec's decision D11): a decode error under fault, 5xy0 and 9xy0 under ignore. -/
def Obligations.LowNibblePolicy : Prop :=
  ∀ x y n : Nibble,
    decode .ignore (0x5#4 ++ x ++ y ++ n : Word) = .ok (.seReg x y) ∧
    decode .ignore (0x9#4 ++ x ++ y ++ n : Word) = .ok (.sneReg x y) ∧
    (n ≠ 0#4 → decode .fault (0x5#4 ++ x ++ y ++ n : Word) = .error .lowNibble ∧
      decode .fault (0x9#4 ++ x ++ y ++ n : Word) = .error .lowNibble)

/-! ## Fetch, step, cycle -/

/-- The fetched word is MEM[PC] * 256 + MEM[PC + 1] of the memory as it stands. -/
def Obligations.FetchIsBigEndian : Prop :=
  ∀ s : State, s.pc.toNat ≤ 0xFFE →
    ∃ (hi lo : Byte) (w : Word), s.memRead s.pc.toNat = some hi ∧ s.memRead (s.pc.toNat + 1) = some lo ∧
      s.fetchWord = some w ∧ w.toNat = hi.toNat * 256 + lo.toNat

/-- A step runs exactly the instruction its bytes decode to: exec of it, from the state with moved cleared and the cycle
begun, and then, unless it halted, the advance by 2 if it did not move PC, and its count in the batch, the tenth
followed by the tick. The model's own: that a step counts itself and holds the tick (log 2), that it sets the model's
phase (log 18), and that a k above 9, which no run reaches, ends the cycle too (log 20). -/
def Obligations.StepRunsDecodedInstruction : Prop :=
  ∀ (s t : State) (i : Instr), s.status.halted = false → s.AboutToRun i →
    exec i { s with moved := false, phase := .running } = .next t →
    step s = .next (
      if t.status.halted then t
      else
        let pc' := if t.moved then t.pc else t.pc + 2#16
        if t.k + 1 < 10 then { t with pc := pc', k := t.k + 1 }
        else { t with pc := pc', k := 0, dt := tickByte t.dt, st := tickByte t.st })

/-- Every step answers a next state: no instruction, fault or word stops the model (faults are taken: R313). -/
def Obligations.EveryStepAnswersNext : Prop :=
  ∀ s : State, ∃ t, step s = .next t

/-- A halted machine changes no state, by a step or by a cycle (the spec's decision D27). -/
def Obligations.HaltedMachineStaysAsItIs : Prop :=
  ∀ s : State, s.status.halted = true → step s = .next s ∧ cycle s = .next s

/-- A step with PC > 0xFFE takes MEM_BOUND_FETCH before reading anything: FAULT_PC is PC, no word is recorded, and nothing
else changes but the model's own moved and phase (the spec's decisions D2, D7). -/
def Obligations.FetchBoundFault : Prop :=
  ∀ s : State, s.status.halted = false → 0xFFE < s.pc.toNat →
    step s = .next { s with
      moved := false
      phase := .running
      status := { halted := true, cause := .memBoundFetch, faultPc := some s.pc, faultWord := none, faultAddr := none } }

/-- A step on an illegal word takes DECODE_ERROR, recording the word and PC; nothing else changes but the model's own moved
and phase (the record is the spec's decision D2). -/
def Obligations.DecodeFault : Prop :=
  ∀ (s : State) (w : Word) (e : DecodeError), s.status.halted = false → s.fetchWord = some w →
    decode s.params.lownib w = .error e →
    step s = .next { s with
      moved := false
      phase := .running
      status := { halted := true, cause := .decodeError, faultPc := some s.pc, faultWord := some w, faultAddr := none } }

/-- PC after a step: the instruction's own target, PC + 4 for a taken skip, PC + 2 otherwise, never masked (the spec's
decision D6); a fault leaves it at the faulting instruction (D10). -/
def Obligations.PcAfterStep : Prop :=
  ∀ (s : State) (i : Instr), s.status.halted = false → s.AboutToRun i →
    ∃ t, step s = .next t ∧ t.pc.toNat = if t.status.halted then s.pc.toNat else pcAfter i s

/-- Inside execute every write of PC sets moved, and the instructions that write it are 00EE, 1nnn, 2nnn, Bnnn and a taken
skip (a RET or CALL that faults writes nothing). -/
def Obligations.PcWritersSetMoved : Prop :=
  ∀ (s t : State) (i : Instr), s.status.halted = false → s.moved = false → exec i s = .next t →
    (t.moved = true ↔ t.status.halted = false ∧ assignsPc i s = true) ∧ (t.moved = false → t.pc = s.pc)

/-- The timers over one step: before the tenth they are as the instruction left them; the tenth that does not fault ends
with one decrement of each, saturating at zero; a faulting step leaves both (no tick in a faulting cycle: the spec's
decision D27). R293 puts the tick at the end of an engine cycle: that this lies inside the tenth step, with k back at 0,
is the model's fold (log 2). -/
def Obligations.TickEndsTheTenthStep : Prop :=
  ∀ (s : State) (i : Instr), s.status.halted = false → s.k < 10 → s.AboutToRun i →
    ∃ t, step s = .next t ∧
      (t.status.halted = true → t.dt = s.dt ∧ t.st = s.st) ∧
      (t.status.halted = false →
        let d := match i with | .ldDtVx x => (s.getV x).toNat | _ => s.dt.toNat
        let e := match i with | .ldStVx x => (s.getV x).toNat | _ => s.st.toNat
        if s.k = 9 then t.k = 0 ∧ t.dt.toNat = d - 1 ∧ t.st.toNat = e - 1
        else t.k = s.k + 1 ∧ t.dt.toNat = d ∧ t.st.toNat = e)

/-- A timer of value v reaches 0 after v ticks and stays there; the two do not affect each other. -/
def Obligations.TimersCountDownToZero : Prop :=
  ∀ (n : Nat) (s : State),
    (State.tick^[n] s).dt.toNat = s.dt.toNat - n ∧ (State.tick^[n] s).st.toNat = s.st.toNat - n ∧
    State.tick^[n] s = { s with dt := (State.tick^[n] s).dt, st := (State.tick^[n] s).st }

/-- The model's cycle, ten of its steps with the tick folded into the tenth and the count kept in the state, is Cycle()
as the spec writes it: nothing on a halted machine, else ten Step(), stopping at a fault, then Tick(). The fold and the
count in the state are the model's (log 2), and so is the value k keeps after a fault, which is set to 0 before the
comparison (log 3); the two returns, on a halted machine and after a fault, are the spec's decision D27. -/
def Obligations.CycleIsTenStepsThenTick : Prop :=
  ∀ s : State,
    (s.status.halted = true → cycle s = .next s) ∧
    (s.status.halted = false → s.k = 0 →
      mapNext (fun t => { t with k := 0 }) (cycle s) = cycleAsWritten 10 s ∧
      (∀ t, cycle s = .next t → t.status.halted = false → t.k = 0))

/-! ## Reset and the host -/

/-- What construction leaves, for every launch: PC = 0x200, an empty stack, LATCH = none, STATUS clear (the stack and
the latch are the spec's decisions D5 and D24), the launch's own values, its font at 0x000-0x04F, its INIT_MEM bytes,
and 00 in the cells it does not list (the model's choice, log 9). The model's own phase is constructed, so that the one
load may follow (log 18), and no random byte has been drawn (log 11). -/
def Obligations.ConstructionValues : Prop :=
  ∀ l : Launch, l.wellFormed = true →
    (construct l).pc = 0x200#16 ∧ (construct l).stack = [] ∧ (construct l).latch = none ∧
    (construct l).status.halted = false ∧ (construct l).status.cause.code = 0#3 ∧
    (construct l).moved = false ∧ (construct l).k = 0 ∧
    (∀ j : Nibble, (construct l).getV j = l.initV[j.toNat]) ∧ (construct l).i = l.initI ∧
    (construct l).dt = l.initDt ∧ (construct l).st = l.initSt ∧ (construct l).fb = l.initFb ∧
    (construct l).params = l.params ∧ (construct l).phase = .constructed ∧ (construct l).draws = 0 ∧
    (∀ a, a < 80 → (construct l).memRead a = l.font[a]?) ∧
    (∀ a b, (a, b) ∈ l.initMem → (∀ c, (a, c) ∈ l.initMem → c = b) → (construct l).memRead a = some b) ∧
    (∀ a, 80 ≤ a → a ≤ 0xFFF → (∀ c, (a, c) ∉ l.initMem) → (construct l).memRead a = some 0x00#8) ∧
    (construct l).mem.wf = true

/-- State.reset is the construction of the model's default launch, and holds the values the model's logs 4 to 10 name:
the defaults of R8, zero registers and timers, every frame-buffer cell off, the 80 bytes of the table of R84 at
0x000-0x04F (glyph g at 5g), and 00 from 0x050 to 0xFFF; there is no cell above. -/
def Obligations.ResetIsDefaultConstruction : Prop :=
  construct defaultLaunch = State.reset ∧ defaultLaunch.wellFormed = true ∧
  State.reset.pc = 0x200#16 ∧ State.reset.i = 0#16 ∧ State.reset.dt = 0#8 ∧ State.reset.st = 0#8 ∧
  (∀ j : Nibble, State.reset.getV j = 0#8) ∧ State.reset.fb = 0#2048 ∧
  State.reset.params =
    { lownib := .fault, aluOrder := .flagLast, shiftOrder := .flagFirst, coordRead := .latched, keyCompare := .full8 } ∧
  (List.range 80).map State.reset.memRead = List.map some (
    [0xF0#8, 0x90#8, 0x90#8, 0x90#8, 0xF0#8] ++ [0x20#8, 0x60#8, 0x20#8, 0x20#8, 0x70#8] ++
    [0xF0#8, 0x10#8, 0xF0#8, 0x80#8, 0xF0#8] ++ [0xF0#8, 0x10#8, 0xF0#8, 0x10#8, 0xF0#8] ++
    [0x90#8, 0x90#8, 0xF0#8, 0x10#8, 0x10#8] ++ [0xF0#8, 0x80#8, 0xF0#8, 0x10#8, 0xF0#8] ++
    [0xF0#8, 0x80#8, 0xF0#8, 0x90#8, 0xF0#8] ++ [0xF0#8, 0x10#8, 0x20#8, 0x40#8, 0x40#8] ++
    [0xF0#8, 0x90#8, 0xF0#8, 0x90#8, 0xF0#8] ++ [0xF0#8, 0x90#8, 0xF0#8, 0x10#8, 0xF0#8] ++
    [0xF0#8, 0x90#8, 0xF0#8, 0x90#8, 0x90#8] ++ [0xE0#8, 0x90#8, 0xE0#8, 0x90#8, 0xE0#8] ++
    [0xF0#8, 0x80#8, 0x80#8, 0x80#8, 0xF0#8] ++ [0xE0#8, 0x90#8, 0x90#8, 0x90#8, 0xE0#8] ++
    [0xF0#8, 0x80#8, 0xF0#8, 0x80#8, 0xF0#8] ++ [0xF0#8, 0x80#8, 0xF0#8, 0x80#8, 0x80#8]) ∧
  (∀ a, 80 ≤ a → a ≤ 0xFFF → State.reset.memRead a = some 0x00#8) ∧
  (∀ a, 0xFFF < a → State.reset.memRead a = none)

/-- The one load copies the image to 0x200 and changes nothing else; an image of more than 3584 bytes, a second load, and a
load after a cycle has begun are refused (the spec's decision D28). -/
def Obligations.LoadCopiesTheImage : Prop :=
  ∀ (s : State) (image : List Byte),
    (s.phase = .constructed → image.length ≤ 3584 →
      ∃ t, load image s = .next t ∧
        (∀ j, j < image.length → t.memRead (0x200 + j) = image[j]?) ∧
        SameMemoryOutside 0x200 image.length s t ∧ t = { s with mem := t.mem, phase := .loaded }) ∧
    (s.phase = .constructed → 3584 < image.length → load image s = .refused .imageTooLong) ∧
    (s.phase ≠ .constructed → load image s = .refused .loadNotAllowed)

/-- Between cycles the host's press latches a key, replacing one already latched, and its clear empties the latch;
nothing else changes; its reads give back FB, the pixel at column X and row Y as FB[64 Y + X], ST and STATUS, and change
nothing. While a cycle runs every one of them, and a second cycle, is refused (the spec's decisions D1 and D19; that the
time after a fault is between cycles is the model's log 3). -/
def Obligations.HostWritesTheLatchBetweenCycles : Prop :=
  ∀ (s : State) (key : Nibble) (X : BitVec 6) (Y : BitVec 5),
    (s.status.halted = true ∨ s.k = 0 →
      press key s = .next { s with latch := some key } ∧ clearLatch s = .next { s with latch := none } ∧
      readFb s = .ok s.fb ∧ readPixel X Y s = .ok (s.fb.getLsbD (64 * Y.toNat + X.toNat)) ∧ readSt s = .ok s.st ∧
      readStatus s = .ok s.status ∧ ∀ a, a = .readFb ∨ a = .readSt ∨ a = .readStatus → hostStep a s = .next s) ∧
    (s.status.halted = false → s.k ≠ 0 →
      press key s = .refused .cycleRunning ∧ clearLatch s = .refused .cycleRunning ∧ cycle s = .refused .cycleRunning ∧
      readFb s = .error .cycleRunning ∧ readPixel X Y s = .error .cycleRunning ∧ readSt s = .error .cycleRunning ∧
      readStatus s = .error .cycleRunning ∧
      ∀ a, a = .readFb ∨ a = .readSt ∨ a = .readStatus → hostStep a s = .refused .cycleRunning)

/-! ## Invariants -/

/-- The invariants hold at reset. -/
def Obligations.ResetMeetsInvariants : Prop :=
  State.reset.Inv ∧ State.reset.PcBound

/-- Every step keeps the canonical memory, the stack bound, the batch position below 10 and a coherent STATUS. -/
def Obligations.StepKeepsInv : Prop :=
  ∀ s t : State, s.Inv → step s = .next t → t.Inv

/-- Every step keeps PC at or below 0x10FE and every return address at or below 0x1000, so the 16-bit wrap of PC never
takes effect (that PC is held unmasked is the spec's decision D6). -/
def Obligations.StepKeepsPcBound : Prop :=
  ∀ s t : State, s.PcBound → step s = .next t → t.PcBound

/-- Every host interaction that is not refused, a whole cycle among them, keeps the invariant. -/
def Obligations.HostActionKeepsInv : Prop :=
  ∀ (s t : State) (a : HostAction), s.Inv → hostStep a s = .next t → t.Inv

/-- No step writes a parameter, and the random-byte oracle is drawn from once by Cxnn and by nothing else (the parameters
are the model's own field, log 4, and the counter, log 11). -/
def Obligations.ParametersAndDraws : Prop :=
  ∀ (s t : State) (i : Instr), exec i s = .next t →
    t.params = s.params ∧ t.phase = s.phase ∧ t.k = s.k ∧
    t.draws = (match i with | .rnd _ _ => s.draws + 1 | _ => s.draws)

/-! ## Display -/

/-- 00E0 turns all 2048 cells off and changes nothing else. -/
def Obligations.ClsTurnsEveryCellOff : Prop :=
  EncodedAs 0x00E0#16 .cls ∧
  ∀ s : State, ∃ t, exec .cls s = .next t ∧ (∀ j, j < 2048 → t.fbRead j = false) ∧ t = { s with fb := t.fb }

/-- Dxyn whose sprite lies inside the memory, or has no row (n = 0, whatever I is), with the coordinates latched, or
with neither x nor y naming VF: each cell a set sprite bit falls on is toggled, no other cell; VF is 1 exactly when one
of them was on; nothing else changes. (The index formula is the spec's decision D16, the latched reading D15.) -/
def Obligations.DrawTogglesTheSprite : Prop :=
  ∀ (s : State) (x y n : Nibble), n = 0#4 ∨ s.i.toNat + n.toNat ≤ 0x1000 →
    s.params.coordRead = .latched ∨ (x ≠ vF ∧ y ≠ vF) →
    ∃ t, exec (.drw x y n) s = .next t ∧
      (∀ j, SpriteHits s (s.getV x).toNat (s.getV y).toNat n.toNat j → t.fbRead j = !s.fbRead j) ∧
      (∀ j, ¬ SpriteHits s (s.getV x).toNat (s.getV y).toNat n.toNat j → t.fbRead j = s.fbRead j) ∧
      ((∃ j, SpriteHits s (s.getV x).toNat (s.getV y).toNat n.toNat j ∧ s.fbRead j = true) → t.getV vF = 1#8) ∧
      ((∀ j, SpriteHits s (s.getV x).toNat (s.getV y).toNat n.toNat j → s.fbRead j = false) → t.getV vF = 0#8) ∧
      (∀ j, j ≠ vF → t.getV j = s.getV j) ∧ t = { s with v := t.v, fb := t.fb }

/-- Dxyn under DRAW_COORD_READ = live (the spec's decision D15), whose sprite lies inside the memory or has no row: VF
being cleared first, a coordinate taken from VF is 0 up to and including the first set bit that meets a cell that is on,
and 1 for every later bit. If no bit meets one, the sprite's cells at these coordinates are turned on and VF is 0; if
the bit of this row and column is the first that does, a cell is toggled by the bits up to that one and by the later
ones, each at its coordinates, so twice where both fall on it, and VF is 1. Nothing else changes. -/
def Obligations.LiveDrawReadsClearedFlag : Prop :=
  ∀ (s : State) (x y n : Nibble), n = 0#4 ∨ s.i.toNat + n.toNat ≤ 0x1000 → s.params.coordRead = .live →
    ((∀ j, SpriteHits s (liveCoord s x 0) (liveCoord s y 0) n.toNat j → s.fbRead j = false) →
      ∃ t, exec (.drw x y n) s = .next t ∧
        (∀ j, t.fbRead j = true ↔
          s.fbRead j = true ∨ SpriteHits s (liveCoord s x 0) (liveCoord s y 0) n.toNat j) ∧
        t.getV vF = 0#8 ∧ (∀ j, j ≠ vF → t.getV j = s.getV j) ∧ t = { s with v := t.v, fb := t.fb }) ∧
    (∀ row col : Nat, row < n.toNat → col < 8 → (s.mem.read (s.i.toNat + row)).getLsbD (7 - col) = true →
      s.fbRead ((64 * (liveCoord s y 0 + row) + (liveCoord s x 0 + col)) % 2048) = true →
      (∀ j, SpriteHitsBetween s (liveCoord s x 0) (liveCoord s y 0) n.toNat 0 (8 * row + col) j → s.fbRead j = false) →
      ∃ t, exec (.drw x y n) s = .next t ∧
        (∀ j, t.fbRead j ≠ s.fbRead j ↔
          ¬(SpriteHitsBetween s (liveCoord s x 0) (liveCoord s y 0) n.toNat 0 (8 * row + col + 1) j ↔
            SpriteHitsBetween s (liveCoord s x 1) (liveCoord s y 1) n.toNat (8 * row + col + 1) (8 * n.toNat) j)) ∧
        t.getV vF = 1#8 ∧ (∀ j, j ≠ vF → t.getV j = s.getV j) ∧ t = { s with v := t.v, fb := t.fb })

/-- Dxyn whose row r is the first outside the memory takes MEM_BOUND_DATA there: the rows before it have been drawn exactly
as a draw of r rows draws them, VF holds their collision, and nothing else changes (the spec's decision D10). -/
def Obligations.DrawFaultKeepsRowsDrawn : Prop :=
  ∀ (s : State) (x y n : Nibble), 0x1000 < s.i.toNat + n.toNat → 0 < n.toNat →
    ∃ u, exec (.drw x y (BitVec.ofNat 4 (0x1000 - s.i.toNat))) s = .next u ∧ u.status = s.status ∧
      exec (.drw x y n) s =
        .next { u with status := boundStatus s.pc s.i (0xD#4 ++ x ++ y ++ n) }

/-- Drawing the same sprite twice at the same place leaves the frame buffer as before, and the second draw sets VF to 1
exactly when some set bit fell on a cell that was off before the first (then on for the second), for x and y other than
F, and a sprite inside the memory or with no row. Derived from R164 and R167; R169's own words on the second draw's VF
leave out the cells that were on before, which the first draw turned off (log 22). -/
def Obligations.DrawTwiceRestores : Prop :=
  ∀ (s : State) (x y n : Nibble), n = 0#4 ∨ s.i.toNat + n.toNat ≤ 0x1000 → x ≠ vF → y ≠ vF →
    ∃ t u, exec (.drw x y n) s = .next t ∧ exec (.drw x y n) t = .next u ∧ u.fb = s.fb ∧
      (u.getV vF = 1#8 ↔ ∃ j, SpriteHits s (s.getV x).toNat (s.getV y).toNat n.toNat j ∧ s.fbRead j = false) ∧
      (u.getV vF = 0#8 ↔ ∀ j, SpriteHits s (s.getV x).toNat (s.getV y).toNat n.toNat j → s.fbRead j = true)

/-! ## Control transfer -/

/-- 00EE: pops the top entry into PC, used as it is; on an empty stack STACK_UNDERFLOW, PC staying at the RET (the record
in STATUS is the spec's decision D2). -/
def Obligations.RetPopsOrUnderflows : Prop :=
  EncodedAs 0x00EE#16 .ret ∧
  ∀ s : State,
    (∀ a rest, s.stack = a :: rest → exec .ret s = .next { s with stack := rest, pc := a, moved := true }) ∧
    (s.stack = [] → exec .ret s = .next { s with status :=
      { halted := true, cause := .stackUnderflow, faultPc := some s.pc, faultWord := some 0x00EE#16, faultAddr := none } })

/-- 1nnn: PC becomes nnn, nothing else changes. -/
def Obligations.JumpSetsPc : Prop :=
  ∀ nnn : Addr, EncodedAs (0x1#4 ++ nnn) (.jp nnn) ∧
    ∀ s : State, exec (.jp nnn) s = .next { s with pc := nnn.setWidth 16, moved := true }

/-- 2nnn: with fewer than 16 entries pushes PC + 2 and jumps (the spec's decisions D3, D4); with 16 takes
STACK_OVERFLOW, pushing nothing and leaving PC at the CALL. That a stack of more than 16, which no run reaches, does as
one of 16 is the model's choice (log 20). -/
def Obligations.CallPushesOrOverflows : Prop :=
  ∀ nnn : Addr, EncodedAs (0x2#4 ++ nnn) (.call nnn) ∧
    ∀ s : State,
      (s.stack.length < 16 → exec (.call nnn) s =
        .next { s with stack := (s.pc + 2#16) :: s.stack, pc := nnn.setWidth 16, moved := true }) ∧
      (16 ≤ s.stack.length → exec (.call nnn) s = .next { s with status :=
        { halted := true, cause := .stackOverflow, faultPc := some s.pc, faultWord := some (0x2#4 ++ nnn),
          faultAddr := none } })

/-- Bnnn: PC becomes nnn + V0, exact and unmasked (the spec's decision D6), always V0. -/
def Obligations.IndexedJumpAddsV0 : Prop :=
  ∀ nnn : Addr, EncodedAs (0xB#4 ++ nnn) (.jpV0 nnn) ∧
    ∀ s : State, ∃ t, exec (.jpV0 nnn) s = .next t ∧ t.pc.toNat = nnn.toNat + (s.getV 0x0#4).toNat ∧
      t = { s with pc := t.pc, moved := true }

/-- CALL and the RET at its target: two steps bring PC to the instruction after the call and the stack back, for any PC in
0x200-0xFFD (derived in the spec from R181 and R183). -/
def Obligations.CallThenReturn : Prop :=
  ∀ (s : State) (nnn : Addr), s.status.halted = false → 0x200 ≤ s.pc.toNat → s.pc.toNat ≤ 0xFFD →
    s.stack.length < 16 → s.fetchWord = some (0x2#4 ++ nnn) →
    ({ s with pc := nnn.setWidth 16 } : State).fetchWord = some 0x00EE#16 →
    ∃ t u, step s = .next t ∧ t.status.halted = false ∧ t.pc = nnn.setWidth 16 ∧ step t = .next u ∧
      u.status.halted = false ∧ u.pc = s.pc + 2#16 ∧ u.stack = s.stack

/-! ## Skips -/

/-- 3xnn and 4xnn: PC + 4 and moved when V[x] = nn, respectively V[x] != nn, else nothing at all. -/
def Obligations.ImmediateSkips : Prop :=
  ∀ (x : Nibble) (nn : Byte),
    EncodedAs (0x3#4 ++ x ++ nn) (.seImm x nn) ∧ EncodedAs (0x4#4 ++ x ++ nn) (.sneImm x nn) ∧
    ∀ s : State,
      exec (.seImm x nn) s = .next (if s.getV x = nn then { s with pc := s.pc + 4#16, moved := true } else s) ∧
      exec (.sneImm x nn) s = .next (if s.getV x = nn then s else { s with pc := s.pc + 4#16, moved := true })

/-- 5xy0 and 9xy0: PC + 4 and moved when V[x] = V[y], respectively V[x] != V[y], else nothing; a word 5xyn or 9xyn with
n != 0 is a decode error under LOWNIB_POLICY = fault (the policy is the spec's decision D11). -/
def Obligations.RegisterSkips : Prop :=
  ∀ x y : Nibble,
    EncodedAs (0x5#4 ++ x ++ y ++ 0x0#4) (.seReg x y) ∧ EncodedAs (0x9#4 ++ x ++ y ++ 0x0#4) (.sneReg x y) ∧
    (∀ n : Nibble, n ≠ 0#4 → (∃ e, decode .fault (0x5#4 ++ x ++ y ++ n : Word) = .error e) ∧
      ∃ e, decode .fault (0x9#4 ++ x ++ y ++ n : Word) = .error e) ∧
    ∀ s : State,
      exec (.seReg x y) s = .next (if s.getV x = s.getV y then { s with pc := s.pc + 4#16, moved := true } else s) ∧
      exec (.sneReg x y) s = .next (if s.getV x = s.getV y then s else { s with pc := s.pc + 4#16, moved := true })

/-- Ex9E and ExA1: a taken Ex9E sets PC + 4 and empties the latch, a failed one changes nothing; ExA1 is taken exactly when
there is no match and never changes the latch. -/
def Obligations.KeySkips : Prop :=
  ∀ x : Nibble, EncodedAs (0xE#4 ++ x ++ 0x9E#8) (.skp x) ∧ EncodedAs (0xE#4 ++ x ++ 0xA1#8) (.sknp x) ∧
    ∀ s : State,
      exec (.skp x) s = .next (
        if keyMatch s.params.keyCompare s.latch (s.getV x) = true
        then { s with pc := s.pc + 4#16, moved := true, latch := none } else s) ∧
      exec (.sknp x) s = .next (
        if keyMatch s.params.keyCompare s.latch (s.getV x) = true then s else { s with pc := s.pc + 4#16, moved := true })

/-- key_match (the spec's decision D18): never with an empty latch; under full8 exactly when the byte is the keycode, so
never above 0xF; under low4 exactly when its low nibble is. -/
def Obligations.KeyMatchRule : Prop :=
  ∀ (c : KeyCompare) (key : Nibble) (b : Byte),
    keyMatch c none b = false ∧
    (keyMatch .full8 (some key) b = true ↔ b.toNat = key.toNat) ∧
    (keyMatch .low4 (some key) b = true ↔ b.toNat % 16 = key.toNat)

/-! ## Loads, arithmetic, logic, random -/

/-- 6xnn and 8xy0: V[x] becomes nn, respectively V[y]; nothing else changes. -/
def Obligations.RegisterLoads : Prop :=
  ∀ (x y : Nibble) (nn : Byte),
    EncodedAs (0x6#4 ++ x ++ nn) (.ldImm x nn) ∧ EncodedAs (0x8#4 ++ x ++ y ++ 0x0#4) (.ldReg x y) ∧
    ∀ s : State,
      (∃ t, exec (.ldImm x nn) s = .next t ∧ t = { s with v := t.v } ∧
        ∀ j, t.getV j = if j = x then nn else s.getV j) ∧
      (∃ t, exec (.ldReg x y) s = .next t ∧ t = { s with v := t.v } ∧
        ∀ j, t.getV j = if j = x then s.getV y else s.getV j)

/-- 7xnn: V[x] becomes V[x] + nn modulo 256; no flag, nothing else changes, VF included unless x = F. -/
def Obligations.AddImmediateWraps : Prop :=
  ∀ (x : Nibble) (nn : Byte), EncodedAs (0x7#4 ++ x ++ nn) (.addImm x nn) ∧
    ∀ s : State, ∃ t, exec (.addImm x nn) s = .next t ∧ t = { s with v := t.v } ∧
      (t.getV x).toNat = ((s.getV x).toNat + nn.toNat) % 256 ∧ ∀ j, j ≠ x → t.getV j = s.getV j

/-- 8xy1, 8xy2, 8xy3: bitwise OR, AND, XOR into V[x]; VF is kept unless x = F (the spec's decision D14). -/
def Obligations.LogicKeepsTheFlag : Prop :=
  ∀ x y : Nibble,
    EncodedAs (0x8#4 ++ x ++ y ++ 0x1#4) (.orReg x y) ∧ EncodedAs (0x8#4 ++ x ++ y ++ 0x2#4) (.andReg x y) ∧
    EncodedAs (0x8#4 ++ x ++ y ++ 0x3#4) (.xorReg x y) ∧
    ∀ s : State,
      (∃ t, exec (.orReg x y) s = .next t ∧ t = { s with v := t.v } ∧ (∀ j, j ≠ x → t.getV j = s.getV j) ∧
        ∀ b, (t.getV x).getLsbD b = ((s.getV x).getLsbD b || (s.getV y).getLsbD b)) ∧
      (∃ t, exec (.andReg x y) s = .next t ∧ t = { s with v := t.v } ∧ (∀ j, j ≠ x → t.getV j = s.getV j) ∧
        ∀ b, (t.getV x).getLsbD b = ((s.getV x).getLsbD b && (s.getV y).getLsbD b)) ∧
      (∃ t, exec (.xorReg x y) s = .next t ∧ t = { s with v := t.v } ∧ (∀ j, j ≠ x → t.getV j = s.getV j) ∧
        ∀ b, (t.getV x).getLsbD b = ((s.getV x).getLsbD b ^^ (s.getV y).getLsbD b))

/-- 8xy4: the sum modulo 256 to V[x] and the carry to VF, in the order ALU_VF_ORDER gives, both from the operands read at
the start; nothing else changes. -/
def Obligations.AddSetsCarry : Prop :=
  ∀ x y : Nibble, EncodedAs (0x8#4 ++ x ++ y ++ 0x4#4) (.addReg x y) ∧
    ∀ s : State, ∃ (t : State) (r f : Byte), exec (.addReg x y) s = .next t ∧ t = { s with v := t.v } ∧
      r.toNat = ((s.getV x).toNat + (s.getV y).toNat) % 256 ∧
      f.toNat = (if 0xFF < (s.getV x).toNat + (s.getV y).toNat then 1 else 0) ∧
      ∀ j, t.getV j = resultV s.params.aluOrder x r f s j

/-- 8xy5 and 8xy7: the difference modulo 256 to V[x] and NOT-borrow to VF, in the order ALU_VF_ORDER gives, both from the
operands read at the start; nothing else changes. -/
def Obligations.SubtractSetsNotBorrow : Prop :=
  ∀ x y : Nibble,
    EncodedAs (0x8#4 ++ x ++ y ++ 0x5#4) (.subReg x y) ∧ EncodedAs (0x8#4 ++ x ++ y ++ 0x7#4) (.subnReg x y) ∧
    ∀ s : State,
      (∃ (t : State) (r f : Byte), exec (.subReg x y) s = .next t ∧ t = { s with v := t.v } ∧
        r.toNat = ((s.getV x).toNat + 256 - (s.getV y).toNat) % 256 ∧
        f.toNat = (if (s.getV y).toNat ≤ (s.getV x).toNat then 1 else 0) ∧
        ∀ j, t.getV j = resultV s.params.aluOrder x r f s j) ∧
      (∃ (t : State) (r f : Byte), exec (.subnReg x y) s = .next t ∧ t = { s with v := t.v } ∧
        r.toNat = ((s.getV y).toNat + 256 - (s.getV x).toNat) % 256 ∧
        f.toNat = (if (s.getV x).toNat ≤ (s.getV y).toNat then 1 else 0) ∧
        ∀ j, t.getV j = resultV s.params.aluOrder x r f s j)

/-- 8xy6 and 8xyE for x other than F: V[x] shifted by one, the bit shifted out to VF, whatever SHIFT_VF_ORDER and y (y
ignored: the spec's decision D14); nothing else changes. -/
def Obligations.ShiftsMoveTheBitToTheFlag : Prop :=
  ∀ x y : Nibble,
    EncodedAs (0x8#4 ++ x ++ y ++ 0x6#4) (.shr x y) ∧ EncodedAs (0x8#4 ++ x ++ y ++ 0xE#4) (.shl x y) ∧
    ∀ s : State, x ≠ vF →
      (∃ t, exec (.shr x y) s = .next t ∧ t = { s with v := t.v } ∧
        (t.getV x).toNat = (s.getV x).toNat / 2 ∧ (t.getV vF).toNat = (s.getV x).toNat % 2 ∧
        ∀ j, j ≠ x → j ≠ vF → t.getV j = s.getV j) ∧
      (∃ t, exec (.shl x y) s = .next t ∧ t = { s with v := t.v } ∧
        (t.getV x).toNat = (s.getV x).toNat * 2 % 256 ∧ (t.getV vF).toNat = (s.getV x).toNat / 128 ∧
        ∀ j, j ≠ x → j ≠ vF → t.getV j = s.getV j)

/-- 8Fy6 and 8FyE (the spec's decision D13): under SHIFT_VF_ORDER = flag_first the shift re-reads the flag, so VF ends as 0,
respectively as twice the old bit 7; under flag_last VF ends as the bit shifted out. Nothing else changes. -/
def Obligations.ShiftsOfTheFlagRegister : Prop :=
  ∀ (s : State) (y : Nibble),
    (∃ t, exec (.shr vF y) s = .next t ∧ t = { s with v := t.v } ∧ (∀ j, j ≠ vF → t.getV j = s.getV j) ∧
      (t.getV vF).toNat = match s.params.shiftOrder with
        | .flagFirst => 0
        | .flagLast => (s.getV vF).toNat % 2) ∧
    (∃ t, exec (.shl vF y) s = .next t ∧ t = { s with v := t.v } ∧ (∀ j, j ≠ vF → t.getV j = s.getV j) ∧
      (t.getV vF).toNat = match s.params.shiftOrder with
        | .flagFirst => 2 * ((s.getV vF).toNat / 128)
        | .flagLast => (s.getV vF).toNat / 128)

/-- Cxnn: V[x] becomes the byte drawn AND nn, whatever byte the oracle gives (the spec's decision D20; the oracle is the
free value of log 11); nothing else changes but the count of draws. -/
def Obligations.RandomByteUnderMask : Prop :=
  ∀ (x : Nibble) (nn : Byte), EncodedAs (0xC#4 ++ x ++ nn) (.rnd x nn) ∧
    ∀ s : State, ∃ t, exec (.rnd x nn) s = .next t ∧ t = { s with v := t.v, draws := s.draws + 1 } ∧
      t.getV x = Config.randByte s.draws &&& nn ∧ (nn = 0#8 → t.getV x = 0#8) ∧ ∀ j, j ≠ x → t.getV j = s.getV j

/-! ## Index register and memory -/

/-- Annn and Fx1E: I becomes nnn, respectively I + V[x] modulo 65536; nothing else changes, VF included. -/
def Obligations.IndexLoadAndAdd : Prop :=
  ∀ (nnn : Addr) (x : Nibble),
    EncodedAs (0xA#4 ++ nnn) (.ldI nnn) ∧ EncodedAs (0xF#4 ++ x ++ 0x1E#8) (.addI x) ∧
    ∀ s : State,
      exec (.ldI nnn) s = .next { s with i := nnn.setWidth 16 } ∧
      ∃ t, exec (.addI x) s = .next t ∧ t = { s with i := t.i } ∧
        t.i.toNat = (s.i.toNat + (s.getV x).toNat) % 65536

/-- Fx29: I becomes V[x] * 5, exact, V[x] not reduced to its low nibble (the spec's decision D17); nothing else changes. -/
def Obligations.GlyphAddressIsFiveTimes : Prop :=
  ∀ x : Nibble, EncodedAs (0xF#4 ++ x ++ 0x29#8) (.ldF x) ∧
    ∀ s : State, ∃ t, exec (.ldF x) s = .next t ∧ t = { s with i := t.i } ∧ t.i.toNat = (s.getV x).toNat * 5

/-- Fx33: the hundreds, tens and ones of V[x] at I, I + 1, I + 2, as far as these lie in the memory; every other byte reads
as before; inside the memory nothing else changes, and outside it MEM_BOUND_DATA is taken at the first address beyond (the
record and the partial effect are the spec's decisions D2, D10). -/
def Obligations.BcdStoresThreeDigits : Prop :=
  ∀ x : Nibble, EncodedAs (0xF#4 ++ x ++ 0x33#8) (.ldB x) ∧
    ∀ s : State, ∃ t, exec (.ldB x) s = .next t ∧ t = { s with mem := t.mem, status := t.status } ∧
      (∀ k b, k < 3 → s.i.toNat + k ≤ 0xFFF → t.memRead (s.i.toNat + k) = some b →
        b.toNat = if k = 0 then (s.getV x).toNat / 100
          else if k = 1 then (s.getV x).toNat / 10 % 10 else (s.getV x).toNat % 10) ∧
      SameMemoryOutside s.i.toNat 3 s t ∧
      t.status = if s.i.toNat + 2 ≤ 0xFFF then s.status else boundStatus s.pc s.i (0xF#4 ++ x ++ 0x33#8)

/-- Fx55: V0..V[x] at I .. I + x, as far as these lie in the memory; every other byte reads as before; I and everything
else are kept; MEM_BOUND_DATA is taken at the first address beyond (the record and the partial effect are the spec's
decisions D2, D10). -/
def Obligations.StoreRegistersToMemory : Prop :=
  ∀ x : Nibble, EncodedAs (0xF#4 ++ x ++ 0x55#8) (.stRegs x) ∧
    ∀ s : State, ∃ t, exec (.stRegs x) s = .next t ∧ t = { s with mem := t.mem, status := t.status } ∧
      (∀ j : Nibble, j.toNat ≤ x.toNat → s.i.toNat + j.toNat ≤ 0xFFF →
        t.memRead (s.i.toNat + j.toNat) = some (s.getV j)) ∧
      SameMemoryOutside s.i.toNat (x.toNat + 1) s t ∧
      t.status = if s.i.toNat + x.toNat ≤ 0xFFF then s.status else boundStatus s.pc s.i (0xF#4 ++ x ++ 0x55#8)

/-- Fx65: V0..V[x] from I .. I + x, as far as these lie in the memory; every other register, I and everything else are
kept; MEM_BOUND_DATA is taken at the first address beyond (the record and the partial effect are the spec's decisions D2,
D10). -/
def Obligations.LoadRegistersFromMemory : Prop :=
  ∀ x : Nibble, EncodedAs (0xF#4 ++ x ++ 0x65#8) (.ldRegs x) ∧
    ∀ s : State, ∃ t, exec (.ldRegs x) s = .next t ∧ t = { s with v := t.v, status := t.status } ∧
      (∀ j : Nibble, j.toNat ≤ x.toNat → s.i.toNat + j.toNat ≤ 0xFFF →
        s.memRead (s.i.toNat + j.toNat) = some (t.getV j)) ∧
      (∀ j : Nibble, x.toNat < j.toNat ∨ 0xFFF < s.i.toNat + j.toNat → t.getV j = s.getV j) ∧
      t.status = if s.i.toNat + x.toNat ≤ 0xFFF then s.status else boundStatus s.pc s.i (0xF#4 ++ x ++ 0x65#8)

/-- MemWrite writes one cell: it then reads as written, by a fetch too, as the high byte at PC and as the low byte at PC
+ 1, and every other cell reads as before; beyond 0xFFF nothing is written (fetch coherence is the spec's
decision D30). -/
def Obligations.WriteThenReadOrFetch : Prop :=
  ∀ (s : State) (a : Nat) (b : Byte),
    (a ≤ 0xFFF → ∃ t, s.memWrite a b = some t ∧ t = { s with mem := t.mem } ∧
      (∀ c, t.memRead c = if c = a then some b else s.memRead c) ∧
      (∀ w : Word, w.toNat = a → a ≤ 0xFFE →
        ∃ v, ({ t with pc := w } : State).fetchWord = some v ∧ v.toNat / 256 = b.toNat) ∧
      (∀ w : Word, w.toNat + 1 = a →
        ∃ v, ({ t with pc := w } : State).fetchWord = some v ∧ v.toNat % 256 = b.toNat)) ∧
    (0xFFF < a → s.memWrite a b = none ∧ s.memRead a = none)

/-! ## Timers -/

/-- Fx07, Fx15, Fx18: V[x] becomes DT, DT becomes V[x], ST becomes V[x]; nothing else changes. -/
def Obligations.TimerTransfers : Prop :=
  ∀ x : Nibble,
    EncodedAs (0xF#4 ++ x ++ 0x07#8) (.ldVxDt x) ∧ EncodedAs (0xF#4 ++ x ++ 0x15#8) (.ldDtVx x) ∧
    EncodedAs (0xF#4 ++ x ++ 0x18#8) (.ldStVx x) ∧
    ∀ s : State,
      (∃ t, exec (.ldVxDt x) s = .next t ∧ t = { s with v := t.v } ∧ ∀ j, t.getV j = if j = x then s.dt else s.getV j) ∧
      exec (.ldDtVx x) s = .next { s with dt := s.getV x } ∧
      exec (.ldStVx x) s = .next { s with st := s.getV x }

/-! ## Rules over all instructions -/

/-- An instruction changes no general register but those the table of R33 gives it (derived in the spec). -/
def Obligations.RegisterWritersTable : Prop :=
  ∀ (s t : State) (i : Instr) (j : Nibble), exec i s = .next t → mayWriteV i j = false → t.getV j = s.getV j

/-- No instruction but Fx33 and Fx55 changes a byte of memory (derived in the spec: R81). -/
def Obligations.MemoryWriters : Prop :=
  ∀ (s t : State) (i : Instr), exec i s = .next t → (∀ x, i ≠ .ldB x ∧ i ≠ .stRegs x) → SameMemory s t

/-- I is written only by Annn, Fx1E and Fx29; FB only by 00E0 and Dxyn; LATCH only by Ex9E; DT only by Fx15, ST only by
Fx18 (and both by the tick). -/
def Obligations.SpecialStateWriters : Prop :=
  ∀ (s t : State) (i : Instr), exec i s = .next t →
    (t.i ≠ s.i → (∃ n, i = .ldI n) ∨ (∃ x, i = .addI x) ∨ ∃ x, i = .ldF x) ∧
    (t.fb ≠ s.fb → i = .cls ∨ ∃ x y n, i = .drw x y n) ∧
    (t.latch ≠ s.latch → (∃ x, i = .skp x) ∧ t.latch = none) ∧
    (t.dt ≠ s.dt → ∃ x, i = .ldDtVx x) ∧
    (t.st ≠ s.st → ∃ x, i = .ldStVx x)

/-- The call stack is reached only by 2nnn and 00EE: 2nnn pushes one entry on top, 00EE pops the top one, and what any other
instruction does neither depends on the stack nor changes it. -/
def Obligations.StackReachedOnlyByCallAndReturn : Prop :=
  (∀ (s : State) (l : List Word) (i : Instr), (∀ n, i ≠ .call n) → i ≠ .ret →
    exec i { s with stack := l } = mapNext (fun t => { t with stack := l }) (exec i s) ∧
    ∀ t, exec i s = .next t → t.stack = s.stack) ∧
  (∀ (s t : State) (n : Addr), exec (.call n) s = .next t → t.status.halted = false → ∃ a, t.stack = a :: s.stack) ∧
  (∀ (s t : State), exec .ret s = .next t → t.status.halted = false → s.stack = t.pc :: t.stack)

/-- What an instruction does neither depends on the batch position nor changes it, and no instruction reads ST. -/
def Obligations.BatchPositionAndSoundTimerUnread : Prop :=
  ∀ (s : State) (n : Nat) (b : Byte) (i : Instr),
    exec i { s with k := n } = mapNext (fun t => { t with k := n }) (exec i s) ∧
    ((∀ x, i ≠ .ldStVx x) → exec i { s with st := b } = mapNext (fun t => { t with st := b }) (exec i s)) ∧
    (∀ x, exec (.ldStVx x) { s with st := b } = exec (.ldStVx x) s)

/-- Fault entry by an instruction: only 00EE, 2nnn, Dxyn, Fx33, Fx55 and Fx65 raise a fault of their own, each its own
cause; HALTED is set, FAULT_PC is PC and FAULT_WORD the instruction's word, and PC, I, the stack, the timers and the latch
keep their values (the record is the spec's decision D2, the partial effects D10). -/
def Obligations.FaultEntryRecord : Prop :=
  ∀ (s t : State) (i : Instr), s.status.halted = false → exec i s = .next t → t.status.halted = true →
    ownFault i = some t.status.cause ∧ t.status.faultPc = some s.pc ∧ t.status.faultWord = some (encode i) ∧
    t.pc = s.pc ∧ t.moved = s.moved ∧ t.i = s.i ∧ t.stack = s.stack ∧ t.dt = s.dt ∧ t.st = s.st ∧ t.latch = s.latch
end

