-- ==== Sys2Proof/Laws/Decode.lean ====
section
/-! SUPPORT. The fields of the words the encoder makes, and a word as the number its fields make. -/

namespace Sys2Proof

/-! ## Fields as numbers -/

theorem opField_toNat (w : Word) : (opField w).toNat = w.toNat / 4096 := by
  have := w.isLt
  simp [opField, Nat.shiftRight_eq_div_pow]; omega

theorem xField_toNat (w : Word) : (xField w).toNat = w.toNat / 256 % 16 := by
  simp [xField, Nat.shiftRight_eq_div_pow]

theorem yField_toNat (w : Word) : (yField w).toNat = w.toNat / 16 % 16 := by
  simp [yField, Nat.shiftRight_eq_div_pow]

theorem nField_toNat (w : Word) : (nField w).toNat = w.toNat % 16 := by simp [nField]

theorem nnField_toNat (w : Word) : (nnField w).toNat = w.toNat % 256 := by simp [nnField]

theorem nnnField_toNat (w : Word) : (nnnField w).toNat = w.toNat % 4096 := by simp [nnnField]

theorem wordNNN_toNat (op : Nibble) (nnn : Addr) : (wordNNN op nnn).toNat = op.toNat * 4096 + nnn.toNat := by
  have := nnn.isLt
  simp only [wordNNN, BitVec.toNat_append, Nat.shiftLeft_eq]
  rw [Nat.mul_comm, ← Nat.two_pow_add_eq_or_of_lt this]

theorem wordXNN_toNat (op x : Nibble) (nn : Byte) :
    (wordXNN op x nn).toNat = op.toNat * 4096 + x.toNat * 256 + nn.toNat := by
  have h1 := nn.isLt; have h2 := x.isLt
  simp only [wordXNN, BitVec.toNat_append, Nat.shiftLeft_eq]
  rw [Nat.mul_comm _ (2 ^ 8), ← Nat.two_pow_add_eq_or_of_lt h1, Nat.mul_comm _ (2 ^ 4),
    ← Nat.two_pow_add_eq_or_of_lt h2]
  omega

theorem wordXYN_toNat (op x y n : Nibble) :
    (wordXYN op x y n).toNat = op.toNat * 4096 + x.toNat * 256 + y.toNat * 16 + n.toNat := by
  have h1 := n.isLt; have h2 := y.isLt; have h3 := x.isLt
  simp only [wordXYN, BitVec.toNat_append, Nat.shiftLeft_eq]
  rw [Nat.mul_comm _ (2 ^ 4), ← Nat.two_pow_add_eq_or_of_lt h1, Nat.mul_comm _ (2 ^ 4),
    ← Nat.two_pow_add_eq_or_of_lt h2, Nat.mul_comm _ (2 ^ 4), ← Nat.two_pow_add_eq_or_of_lt h3]
  omega

/-! ## Fields of encoded words -/

@[simp] theorem opField_wordNNN (op : Nibble) (nnn : Addr) : opField (wordNNN op nnn) = op := by
  apply BitVec.eq_of_toNat_eq
  rw [opField_toNat, wordNNN_toNat]
  omega

@[simp] theorem nnnField_wordNNN (op : Nibble) (nnn : Addr) : nnnField (wordNNN op nnn) = nnn := by
  apply BitVec.eq_of_toNat_eq
  rw [nnnField_toNat, wordNNN_toNat]
  omega

@[simp] theorem opField_wordXNN (op x : Nibble) (nn : Byte) : opField (wordXNN op x nn) = op := by
  apply BitVec.eq_of_toNat_eq
  rw [opField_toNat, wordXNN_toNat]
  omega

@[simp] theorem xField_wordXNN (op x : Nibble) (nn : Byte) : xField (wordXNN op x nn) = x := by
  apply BitVec.eq_of_toNat_eq
  rw [xField_toNat, wordXNN_toNat]
  omega

@[simp] theorem nnField_wordXNN (op x : Nibble) (nn : Byte) : nnField (wordXNN op x nn) = nn := by
  apply BitVec.eq_of_toNat_eq
  rw [nnField_toNat, wordXNN_toNat]
  omega

@[simp] theorem opField_wordXYN (op x y n : Nibble) : opField (wordXYN op x y n) = op := by
  apply BitVec.eq_of_toNat_eq
  rw [opField_toNat, wordXYN_toNat]
  omega

@[simp] theorem xField_wordXYN (op x y n : Nibble) : xField (wordXYN op x y n) = x := by
  apply BitVec.eq_of_toNat_eq
  rw [xField_toNat, wordXYN_toNat]
  omega

@[simp] theorem yField_wordXYN (op x y n : Nibble) : yField (wordXYN op x y n) = y := by
  apply BitVec.eq_of_toNat_eq
  rw [yField_toNat, wordXYN_toNat]
  omega

@[simp] theorem nField_wordXYN (op x y n : Nibble) : nField (wordXYN op x y n) = n := by
  apply BitVec.eq_of_toNat_eq
  rw [nField_toNat, wordXYN_toNat]
  omega

/-- A word from two bytes, as a number (R142). -/
theorem joinBytes_toNat (hi lo : Byte) : (joinBytes hi lo).toNat = hi.toNat * 256 + lo.toNat := by
  have := lo.isLt
  simp only [joinBytes, BitVec.toNat_append, Nat.shiftLeft_eq]
  rw [Nat.mul_comm, ← Nat.two_pow_add_eq_or_of_lt this, Nat.mul_comm]

/-- The two bytes of a word make the word. -/
@[simp] theorem joinBytes_bytes (w : Word) : joinBytes (hiByte w) (loByte w) = w := by
  apply BitVec.eq_of_toNat_eq
  rw [joinBytes_toNat]
  have := w.isLt
  simp [hiByte, loByte, Nat.shiftRight_eq_div_pow]; omega

/-- The bytes of a word are decoded as the word. -/
theorem decodeBytes_word (p : LownibPolicy) (w : Word) (rest : List Byte) :
    decodeBytes p (hiByte w :: loByte w :: rest) =
      match decode p w with
      | .ok i => .ok (i, rest)
      | .error e => .error e := by
  cases h : decode p w <;> simp [decodeBytes, h]

end Sys2Proof
end

