-- ==== Sys2Proof/Laws/Memory.lean ====
section
/-! SUPPORT. The laws of memory: a read after a write, on every list of cells, and the canonical form, which every memory
operation keeps. -/

namespace Sys2Proof.Machine

@[simp] theorem Memory.read_nil (a : Nat) : Memory.read [] a = unlistedByte a := rfl

theorem Memory.read_unlist (m : Memory) (a b : Nat) :
    (m.unlist a).read b = if b = a then unlistedByte a else m.read b := by
  induction m with
  | nil => by_cases h : b = a <;> simp [Memory.unlist, h]
  | cons c m ih =>
    obtain ⟨d, u⟩ := c
    by_cases hd : d = a
    · subst hd
      by_cases hb : b = d
      · subst hb; simpa [Memory.unlist] using ih
      · simpa [Memory.unlist, Memory.read, hb, Ne.symm hb] using ih
    · by_cases hb : d = b
      · subst hb; simp [Memory.unlist, Memory.read, hd]
      · simpa [Memory.unlist, Memory.read, hd, hb] using ih

theorem Memory.read_list_self (m : Memory) (a : Nat) (u : Byte) (h : ∀ c ∈ m, c.1 ≠ a) :
    (m.list a u).read a = u := by
  induction m with
  | nil => simp [Memory.list, Memory.read]
  | cons c m ih =>
    obtain ⟨d, w⟩ := c
    have hd : d ≠ a := h (d, w) (by simp)
    by_cases hl : a < d
    · simp [Memory.list, Memory.read, hl]
    · simpa [Memory.list, Memory.read, hl, hd] using ih fun c hc => h c (by simp [hc])

theorem Memory.read_list_other (m : Memory) (a b : Nat) (u : Byte) (h : b ≠ a) :
    (m.list a u).read b = m.read b := by
  induction m with
  | nil => simp [Memory.list, Memory.read, Ne.symm h]
  | cons c m ih =>
    obtain ⟨d, w⟩ := c
    by_cases hl : a < d
    · simp [Memory.list, Memory.read, hl, Ne.symm h]
    · simp only [Memory.list, hl, if_false, Memory.read, ih]

theorem Memory.unlist_lacks (m : Memory) (a : Nat) : ∀ c ∈ Memory.unlist m a, c.1 ≠ a := by
  induction m with
  | nil => simp [Memory.unlist]
  | cons c m ih =>
    obtain ⟨d, u⟩ := c
    by_cases hd : d = a
    · simpa [Memory.unlist, hd] using ih
    · intro c hc
      rcases (by simpa [Memory.unlist, hd] using hc : c = (d, u) ∨ c ∈ Memory.unlist m a) with rfl | hc
      · exact hd
      · exact ih c hc

/-- A read after a write: the written cell holds the byte, every other cell is as before. True of every list of cells. -/
theorem Memory.read_write (m : Memory) (a b : Nat) (u : Byte) :
    (m.write a u).read b = if b = a then u else m.read b := by
  unfold Memory.write
  split
  · rename_i h; rw [Memory.read_unlist, h]
  · by_cases hb : b = a
    · subst hb; simp [Memory.read_list_self _ _ _ (m.unlist_lacks b)]
    · simp [Memory.read_list_other _ _ _ _ hb, Memory.read_unlist, hb]

/-- A block written at a: byte j of it stands at a + j, every other cell is as before. -/
theorem Memory.read_writeBlock (m : Memory) (a b : Nat) (bs : List Byte) :
    (m.writeBlock a bs).read b =
      if h : a ≤ b ∧ b < a + bs.length then bs[b - a]'(by omega) else m.read b := by
  induction bs generalizing m a with
  | nil =>
    have h : ¬(a ≤ b ∧ b < a + ([] : List Byte).length) := by simp
    simp only [Memory.writeBlock, h, dite_false]
  | cons u bs ih =>
    rw [Memory.writeBlock, ih]
    by_cases hb : b = a
    · subst hb; simp [Memory.read_write]
    · by_cases h1 : a + 1 ≤ b ∧ b < a + 1 + bs.length
      · have h2 : a ≤ b ∧ b < a + (u :: bs).length := by simp; omega
        obtain ⟨e, he⟩ : ∃ e, b - a = e + 1 := ⟨b - a - 1, by omega⟩
        have h3 : b - (a + 1) = e := by omega
        simp only [h1, h2, he, h3, and_self, dite_true, List.getElem_cons_succ]
      · have h2 : ¬(a ≤ b ∧ b < a + (u :: bs).length) := by simp; omega
        simp only [h1, h2, dite_false, Memory.read_write, hb, if_false]

/-! ## The canonical form -/

theorem Memory.wfFrom_cons (lo a : Nat) (u : Byte) (m : Memory) :
    Memory.wfFrom lo ((a, u) :: m) = true ↔
      lo ≤ a ∧ a < Config.memSize ∧ u ≠ unlistedByte a ∧ Memory.wfFrom (a + 1) m = true := by
  simp [Memory.wfFrom, and_assoc]

theorem Memory.wfFrom_mono (m : Memory) (lo lo' : Nat) (h : lo' ≤ lo) (w : Memory.wfFrom lo m = true) :
    Memory.wfFrom lo' m = true := by
  cases m with
  | nil => rfl
  | cons c m => rw [Memory.wfFrom_cons] at w ⊢; exact ⟨by omega, w.2⟩

theorem Memory.unlist_wfFrom (m : Memory) (lo a : Nat) (w : Memory.wfFrom lo m = true) :
    Memory.wfFrom lo (m.unlist a) = true := by
  induction m generalizing lo with
  | nil => rfl
  | cons c m ih =>
    obtain ⟨d, u⟩ := c
    rw [Memory.wfFrom_cons] at w
    by_cases hd : d = a
    · simpa [Memory.unlist, hd] using ih lo (Memory.wfFrom_mono _ _ _ (by omega) w.2.2.2)
    · simp only [Memory.unlist, hd, if_false, Memory.wfFrom_cons]
      exact ⟨w.1, w.2.1, w.2.2.1, ih _ w.2.2.2⟩

theorem Memory.list_wfFrom (m : Memory) (lo a : Nat) (u : Byte) (w : Memory.wfFrom lo m = true)
    (h : ∀ c ∈ m, c.1 ≠ a) (hlo : lo ≤ a) (ha : a < Config.memSize) (hu : u ≠ unlistedByte a) :
    Memory.wfFrom lo (m.list a u) = true := by
  induction m generalizing lo with
  | nil => simp only [Memory.list, Memory.wfFrom_cons]; exact ⟨hlo, ha, hu, rfl⟩
  | cons c m ih =>
    obtain ⟨d, x⟩ := c
    have hd : d ≠ a := h (d, x) (by simp)
    rw [Memory.wfFrom_cons] at w
    by_cases hl : a < d
    · simp only [Memory.list, hl, if_true, Memory.wfFrom_cons]
      exact ⟨hlo, ha, hu, by omega, w.2.1, w.2.2.1, w.2.2.2⟩
    · simp only [Memory.list, hl, if_false, Memory.wfFrom_cons]
      exact ⟨w.1, w.2.1, w.2.2.1, ih _ w.2.2.2 (fun c hc => h c (by simp [hc])) (by omega)⟩

/-- A write of a cell that exists keeps the canonical form. -/
theorem Memory.write_wf (m : Memory) (a : Nat) (u : Byte) (ha : a < Config.memSize) (w : m.wf = true) :
    (m.write a u).wf = true := by
  unfold Memory.write
  split
  · exact Memory.unlist_wfFrom _ _ _ w
  · exact Memory.list_wfFrom _ _ _ _ (Memory.unlist_wfFrom _ _ _ w) (m.unlist_lacks a) (by omega) ha ‹_›

/-- A block written inside the memory keeps the canonical form. -/
theorem Memory.writeBlock_wf (m : Memory) (a : Nat) (bs : List Byte) (h : a + bs.length ≤ Config.memSize)
    (w : m.wf = true) : (m.writeBlock a bs).wf = true := by
  induction bs generalizing m a with
  | nil => exact w
  | cons u bs ih =>
    simp only [List.length_cons] at h
    exact ih _ _ (by omega) (Memory.write_wf _ _ _ (by omega) w)

/-! ## MemRead and MemWrite (R87) -/

theorem State.memRead_eq (s : State) (a : Nat) (h : a ≤ 0xFFF) : s.memRead a = some (s.mem.read a) := by
  simp [State.memRead, h]

theorem State.memRead_none (s : State) (a : Nat) (h : 0xFFF < a) : s.memRead a = none := by
  simp [State.memRead]; omega

theorem State.memWrite_eq (s : State) (a : Nat) (u : Byte) (h : a ≤ 0xFFF) :
    s.memWrite a u = some { s with mem := s.mem.write a u } := by
  simp [State.memWrite, h]

theorem State.memWrite_none (s : State) (a : Nat) (u : Byte) (h : 0xFFF < a) : s.memWrite a u = none := by
  simp [State.memWrite]; omega

/-- MemWrite keeps the canonical form. -/
theorem State.memWrite_wf (s t : State) (a : Nat) (u : Byte) (h : s.memWrite a u = some t) (w : s.mem.wf = true) :
    t.mem.wf = true := by
  by_cases ha : a ≤ 0xFFF
  · rw [State.memWrite_eq _ _ _ ha] at h
    cases h
    exact Memory.write_wf _ _ _ (by simp only [Config.memSize]; omega) w
  · rw [State.memWrite_none _ _ _ (by omega)] at h; cases h

/-- Two states with the same memory list read the same. -/
theorem State.memRead_congr {s t : State} (h : t.mem = s.mem) (a : Nat) : t.memRead a = s.memRead a := by
  simp [State.memRead, h]

end Sys2Proof.Machine
end

