-- ==== Sys2Proof/Laws/State.lean ====
section
/-! SUPPORT. One lemma per field of State per named update, each true by unfolding, so that no proof unfolds a record
update. -/

namespace Sys2Proof.Machine

variable (s : State)

/-! ### setV -/

@[simp] theorem setV_v (j : Nibble) (b : Byte) : (s.setV j b).v = s.v.set j.toNat b := rfl
@[simp] theorem setV_i (j : Nibble) (b : Byte) : (s.setV j b).i = s.i := rfl
@[simp] theorem setV_pc (j : Nibble) (b : Byte) : (s.setV j b).pc = s.pc := rfl
@[simp] theorem setV_stack (j : Nibble) (b : Byte) : (s.setV j b).stack = s.stack := rfl
@[simp] theorem setV_dt (j : Nibble) (b : Byte) : (s.setV j b).dt = s.dt := rfl
@[simp] theorem setV_st (j : Nibble) (b : Byte) : (s.setV j b).st = s.st := rfl
@[simp] theorem setV_mem (j : Nibble) (b : Byte) : (s.setV j b).mem = s.mem := rfl
@[simp] theorem setV_fb (j : Nibble) (b : Byte) : (s.setV j b).fb = s.fb := rfl
@[simp] theorem setV_latch (j : Nibble) (b : Byte) : (s.setV j b).latch = s.latch := rfl
@[simp] theorem setV_status (j : Nibble) (b : Byte) : (s.setV j b).status = s.status := rfl
@[simp] theorem setV_moved (j : Nibble) (b : Byte) : (s.setV j b).moved = s.moved := rfl
@[simp] theorem setV_k (j : Nibble) (b : Byte) : (s.setV j b).k = s.k := rfl
@[simp] theorem setV_params (j : Nibble) (b : Byte) : (s.setV j b).params = s.params := rfl
@[simp] theorem setV_draws (j : Nibble) (b : Byte) : (s.setV j b).draws = s.draws := rfl
@[simp] theorem setV_phase (j : Nibble) (b : Byte) : (s.setV j b).phase = s.phase := rfl

/-! ### setI -/

@[simp] theorem setI_v (w : Word) : (s.setI w).v = s.v := rfl
@[simp] theorem setI_i (w : Word) : (s.setI w).i = w := rfl
@[simp] theorem setI_pc (w : Word) : (s.setI w).pc = s.pc := rfl
@[simp] theorem setI_stack (w : Word) : (s.setI w).stack = s.stack := rfl
@[simp] theorem setI_dt (w : Word) : (s.setI w).dt = s.dt := rfl
@[simp] theorem setI_st (w : Word) : (s.setI w).st = s.st := rfl
@[simp] theorem setI_mem (w : Word) : (s.setI w).mem = s.mem := rfl
@[simp] theorem setI_fb (w : Word) : (s.setI w).fb = s.fb := rfl
@[simp] theorem setI_latch (w : Word) : (s.setI w).latch = s.latch := rfl
@[simp] theorem setI_status (w : Word) : (s.setI w).status = s.status := rfl
@[simp] theorem setI_moved (w : Word) : (s.setI w).moved = s.moved := rfl
@[simp] theorem setI_k (w : Word) : (s.setI w).k = s.k := rfl
@[simp] theorem setI_params (w : Word) : (s.setI w).params = s.params := rfl
@[simp] theorem setI_draws (w : Word) : (s.setI w).draws = s.draws := rfl
@[simp] theorem setI_phase (w : Word) : (s.setI w).phase = s.phase := rfl

/-! ### jump -/

@[simp] theorem jump_v (w : Word) : (s.jump w).v = s.v := rfl
@[simp] theorem jump_i (w : Word) : (s.jump w).i = s.i := rfl
@[simp] theorem jump_pc (w : Word) : (s.jump w).pc = w := rfl
@[simp] theorem jump_stack (w : Word) : (s.jump w).stack = s.stack := rfl
@[simp] theorem jump_dt (w : Word) : (s.jump w).dt = s.dt := rfl
@[simp] theorem jump_st (w : Word) : (s.jump w).st = s.st := rfl
@[simp] theorem jump_mem (w : Word) : (s.jump w).mem = s.mem := rfl
@[simp] theorem jump_fb (w : Word) : (s.jump w).fb = s.fb := rfl
@[simp] theorem jump_latch (w : Word) : (s.jump w).latch = s.latch := rfl
@[simp] theorem jump_status (w : Word) : (s.jump w).status = s.status := rfl
@[simp] theorem jump_moved (w : Word) : (s.jump w).moved = true := rfl
@[simp] theorem jump_k (w : Word) : (s.jump w).k = s.k := rfl
@[simp] theorem jump_params (w : Word) : (s.jump w).params = s.params := rfl
@[simp] theorem jump_draws (w : Word) : (s.jump w).draws = s.draws := rfl
@[simp] theorem jump_phase (w : Word) : (s.jump w).phase = s.phase := rfl

/-! ### setDt -/

@[simp] theorem setDt_v (b : Byte) : (s.setDt b).v = s.v := rfl
@[simp] theorem setDt_i (b : Byte) : (s.setDt b).i = s.i := rfl
@[simp] theorem setDt_pc (b : Byte) : (s.setDt b).pc = s.pc := rfl
@[simp] theorem setDt_stack (b : Byte) : (s.setDt b).stack = s.stack := rfl
@[simp] theorem setDt_dt (b : Byte) : (s.setDt b).dt = b := rfl
@[simp] theorem setDt_st (b : Byte) : (s.setDt b).st = s.st := rfl
@[simp] theorem setDt_mem (b : Byte) : (s.setDt b).mem = s.mem := rfl
@[simp] theorem setDt_fb (b : Byte) : (s.setDt b).fb = s.fb := rfl
@[simp] theorem setDt_latch (b : Byte) : (s.setDt b).latch = s.latch := rfl
@[simp] theorem setDt_status (b : Byte) : (s.setDt b).status = s.status := rfl
@[simp] theorem setDt_moved (b : Byte) : (s.setDt b).moved = s.moved := rfl
@[simp] theorem setDt_k (b : Byte) : (s.setDt b).k = s.k := rfl
@[simp] theorem setDt_params (b : Byte) : (s.setDt b).params = s.params := rfl
@[simp] theorem setDt_draws (b : Byte) : (s.setDt b).draws = s.draws := rfl
@[simp] theorem setDt_phase (b : Byte) : (s.setDt b).phase = s.phase := rfl

/-! ### setSt -/

@[simp] theorem setSt_v (b : Byte) : (s.setSt b).v = s.v := rfl
@[simp] theorem setSt_i (b : Byte) : (s.setSt b).i = s.i := rfl
@[simp] theorem setSt_pc (b : Byte) : (s.setSt b).pc = s.pc := rfl
@[simp] theorem setSt_stack (b : Byte) : (s.setSt b).stack = s.stack := rfl
@[simp] theorem setSt_dt (b : Byte) : (s.setSt b).dt = s.dt := rfl
@[simp] theorem setSt_st (b : Byte) : (s.setSt b).st = b := rfl
@[simp] theorem setSt_mem (b : Byte) : (s.setSt b).mem = s.mem := rfl
@[simp] theorem setSt_fb (b : Byte) : (s.setSt b).fb = s.fb := rfl
@[simp] theorem setSt_latch (b : Byte) : (s.setSt b).latch = s.latch := rfl
@[simp] theorem setSt_status (b : Byte) : (s.setSt b).status = s.status := rfl
@[simp] theorem setSt_moved (b : Byte) : (s.setSt b).moved = s.moved := rfl
@[simp] theorem setSt_k (b : Byte) : (s.setSt b).k = s.k := rfl
@[simp] theorem setSt_params (b : Byte) : (s.setSt b).params = s.params := rfl
@[simp] theorem setSt_draws (b : Byte) : (s.setSt b).draws = s.draws := rfl
@[simp] theorem setSt_phase (b : Byte) : (s.setSt b).phase = s.phase := rfl

/-! ### setLatch -/

@[simp] theorem setLatch_v (l : Option Nibble) : (s.setLatch l).v = s.v := rfl
@[simp] theorem setLatch_i (l : Option Nibble) : (s.setLatch l).i = s.i := rfl
@[simp] theorem setLatch_pc (l : Option Nibble) : (s.setLatch l).pc = s.pc := rfl
@[simp] theorem setLatch_stack (l : Option Nibble) : (s.setLatch l).stack = s.stack := rfl
@[simp] theorem setLatch_dt (l : Option Nibble) : (s.setLatch l).dt = s.dt := rfl
@[simp] theorem setLatch_st (l : Option Nibble) : (s.setLatch l).st = s.st := rfl
@[simp] theorem setLatch_mem (l : Option Nibble) : (s.setLatch l).mem = s.mem := rfl
@[simp] theorem setLatch_fb (l : Option Nibble) : (s.setLatch l).fb = s.fb := rfl
@[simp] theorem setLatch_latch (l : Option Nibble) : (s.setLatch l).latch = l := rfl
@[simp] theorem setLatch_status (l : Option Nibble) : (s.setLatch l).status = s.status := rfl
@[simp] theorem setLatch_moved (l : Option Nibble) : (s.setLatch l).moved = s.moved := rfl
@[simp] theorem setLatch_k (l : Option Nibble) : (s.setLatch l).k = s.k := rfl
@[simp] theorem setLatch_params (l : Option Nibble) : (s.setLatch l).params = s.params := rfl
@[simp] theorem setLatch_draws (l : Option Nibble) : (s.setLatch l).draws = s.draws := rfl
@[simp] theorem setLatch_phase (l : Option Nibble) : (s.setLatch l).phase = s.phase := rfl

/-! ### setStack -/

@[simp] theorem setStack_v (l : List Word) : (s.setStack l).v = s.v := rfl
@[simp] theorem setStack_i (l : List Word) : (s.setStack l).i = s.i := rfl
@[simp] theorem setStack_pc (l : List Word) : (s.setStack l).pc = s.pc := rfl
@[simp] theorem setStack_stack (l : List Word) : (s.setStack l).stack = l := rfl
@[simp] theorem setStack_dt (l : List Word) : (s.setStack l).dt = s.dt := rfl
@[simp] theorem setStack_st (l : List Word) : (s.setStack l).st = s.st := rfl
@[simp] theorem setStack_mem (l : List Word) : (s.setStack l).mem = s.mem := rfl
@[simp] theorem setStack_fb (l : List Word) : (s.setStack l).fb = s.fb := rfl
@[simp] theorem setStack_latch (l : List Word) : (s.setStack l).latch = s.latch := rfl
@[simp] theorem setStack_status (l : List Word) : (s.setStack l).status = s.status := rfl
@[simp] theorem setStack_moved (l : List Word) : (s.setStack l).moved = s.moved := rfl
@[simp] theorem setStack_k (l : List Word) : (s.setStack l).k = s.k := rfl
@[simp] theorem setStack_params (l : List Word) : (s.setStack l).params = s.params := rfl
@[simp] theorem setStack_draws (l : List Word) : (s.setStack l).draws = s.draws := rfl
@[simp] theorem setStack_phase (l : List Word) : (s.setStack l).phase = s.phase := rfl

/-! ### drawByte -/

@[simp] theorem drawByte_v : s.drawByte.2.v = s.v := rfl
@[simp] theorem drawByte_i : s.drawByte.2.i = s.i := rfl
@[simp] theorem drawByte_pc : s.drawByte.2.pc = s.pc := rfl
@[simp] theorem drawByte_stack : s.drawByte.2.stack = s.stack := rfl
@[simp] theorem drawByte_dt : s.drawByte.2.dt = s.dt := rfl
@[simp] theorem drawByte_st : s.drawByte.2.st = s.st := rfl
@[simp] theorem drawByte_mem : s.drawByte.2.mem = s.mem := rfl
@[simp] theorem drawByte_fb : s.drawByte.2.fb = s.fb := rfl
@[simp] theorem drawByte_latch : s.drawByte.2.latch = s.latch := rfl
@[simp] theorem drawByte_status : s.drawByte.2.status = s.status := rfl
@[simp] theorem drawByte_moved : s.drawByte.2.moved = s.moved := rfl
@[simp] theorem drawByte_k : s.drawByte.2.k = s.k := rfl
@[simp] theorem drawByte_params : s.drawByte.2.params = s.params := rfl
@[simp] theorem drawByte_draws : s.drawByte.2.draws = s.draws + 1 := rfl
@[simp] theorem drawByte_phase : s.drawByte.2.phase = s.phase := rfl

/-! ### fbClear -/

@[simp] theorem fbClear_v : s.fbClear.v = s.v := rfl
@[simp] theorem fbClear_i : s.fbClear.i = s.i := rfl
@[simp] theorem fbClear_pc : s.fbClear.pc = s.pc := rfl
@[simp] theorem fbClear_stack : s.fbClear.stack = s.stack := rfl
@[simp] theorem fbClear_dt : s.fbClear.dt = s.dt := rfl
@[simp] theorem fbClear_st : s.fbClear.st = s.st := rfl
@[simp] theorem fbClear_mem : s.fbClear.mem = s.mem := rfl
@[simp] theorem fbClear_fb : s.fbClear.fb = 0#2048 := rfl
@[simp] theorem fbClear_latch : s.fbClear.latch = s.latch := rfl
@[simp] theorem fbClear_status : s.fbClear.status = s.status := rfl
@[simp] theorem fbClear_moved : s.fbClear.moved = s.moved := rfl
@[simp] theorem fbClear_k : s.fbClear.k = s.k := rfl
@[simp] theorem fbClear_params : s.fbClear.params = s.params := rfl
@[simp] theorem fbClear_draws : s.fbClear.draws = s.draws := rfl
@[simp] theorem fbClear_phase : s.fbClear.phase = s.phase := rfl

/-! ### fbToggle -/

@[simp] theorem fbToggle_v (n : Nat) : (s.fbToggle n).v = s.v := rfl
@[simp] theorem fbToggle_i (n : Nat) : (s.fbToggle n).i = s.i := rfl
@[simp] theorem fbToggle_pc (n : Nat) : (s.fbToggle n).pc = s.pc := rfl
@[simp] theorem fbToggle_stack (n : Nat) : (s.fbToggle n).stack = s.stack := rfl
@[simp] theorem fbToggle_dt (n : Nat) : (s.fbToggle n).dt = s.dt := rfl
@[simp] theorem fbToggle_st (n : Nat) : (s.fbToggle n).st = s.st := rfl
@[simp] theorem fbToggle_mem (n : Nat) : (s.fbToggle n).mem = s.mem := rfl
@[simp] theorem fbToggle_fb (n : Nat) : (s.fbToggle n).fb = s.fb ^^^ BitVec.twoPow 2048 n := rfl
@[simp] theorem fbToggle_latch (n : Nat) : (s.fbToggle n).latch = s.latch := rfl
@[simp] theorem fbToggle_status (n : Nat) : (s.fbToggle n).status = s.status := rfl
@[simp] theorem fbToggle_moved (n : Nat) : (s.fbToggle n).moved = s.moved := rfl
@[simp] theorem fbToggle_k (n : Nat) : (s.fbToggle n).k = s.k := rfl
@[simp] theorem fbToggle_params (n : Nat) : (s.fbToggle n).params = s.params := rfl
@[simp] theorem fbToggle_draws (n : Nat) : (s.fbToggle n).draws = s.draws := rfl
@[simp] theorem fbToggle_phase (n : Nat) : (s.fbToggle n).phase = s.phase := rfl

/-! ### raise -/

@[simp] theorem raise_v (c : Cause) (w : Option Word) (a : Option (BitVec 17)) : (s.raise c w a).v = s.v := rfl
@[simp] theorem raise_i (c : Cause) (w : Option Word) (a : Option (BitVec 17)) : (s.raise c w a).i = s.i := rfl
@[simp] theorem raise_pc (c : Cause) (w : Option Word) (a : Option (BitVec 17)) : (s.raise c w a).pc = s.pc := rfl
@[simp] theorem raise_stack (c : Cause) (w : Option Word) (a : Option (BitVec 17)) : (s.raise c w a).stack = s.stack := rfl
@[simp] theorem raise_dt (c : Cause) (w : Option Word) (a : Option (BitVec 17)) : (s.raise c w a).dt = s.dt := rfl
@[simp] theorem raise_st (c : Cause) (w : Option Word) (a : Option (BitVec 17)) : (s.raise c w a).st = s.st := rfl
@[simp] theorem raise_mem (c : Cause) (w : Option Word) (a : Option (BitVec 17)) : (s.raise c w a).mem = s.mem := rfl
@[simp] theorem raise_fb (c : Cause) (w : Option Word) (a : Option (BitVec 17)) : (s.raise c w a).fb = s.fb := rfl
@[simp] theorem raise_latch (c : Cause) (w : Option Word) (a : Option (BitVec 17)) : (s.raise c w a).latch = s.latch := rfl
@[simp] theorem raise_status (c : Cause) (w : Option Word) (a : Option (BitVec 17)) : (s.raise c w a).status = { halted := true, cause := c, faultPc := some s.pc, faultWord := w, faultAddr := a } := rfl
@[simp] theorem raise_moved (c : Cause) (w : Option Word) (a : Option (BitVec 17)) : (s.raise c w a).moved = s.moved := rfl
@[simp] theorem raise_k (c : Cause) (w : Option Word) (a : Option (BitVec 17)) : (s.raise c w a).k = s.k := rfl
@[simp] theorem raise_params (c : Cause) (w : Option Word) (a : Option (BitVec 17)) : (s.raise c w a).params = s.params := rfl
@[simp] theorem raise_draws (c : Cause) (w : Option Word) (a : Option (BitVec 17)) : (s.raise c w a).draws = s.draws := rfl
@[simp] theorem raise_phase (c : Cause) (w : Option Word) (a : Option (BitVec 17)) : (s.raise c w a).phase = s.phase := rfl

/-! ### raiseBound -/

@[simp] theorem raiseBound_v (w : Word) (a : Nat) : (s.raiseBound w a).v = s.v := rfl
@[simp] theorem raiseBound_i (w : Word) (a : Nat) : (s.raiseBound w a).i = s.i := rfl
@[simp] theorem raiseBound_pc (w : Word) (a : Nat) : (s.raiseBound w a).pc = s.pc := rfl
@[simp] theorem raiseBound_stack (w : Word) (a : Nat) : (s.raiseBound w a).stack = s.stack := rfl
@[simp] theorem raiseBound_dt (w : Word) (a : Nat) : (s.raiseBound w a).dt = s.dt := rfl
@[simp] theorem raiseBound_st (w : Word) (a : Nat) : (s.raiseBound w a).st = s.st := rfl
@[simp] theorem raiseBound_mem (w : Word) (a : Nat) : (s.raiseBound w a).mem = s.mem := rfl
@[simp] theorem raiseBound_fb (w : Word) (a : Nat) : (s.raiseBound w a).fb = s.fb := rfl
@[simp] theorem raiseBound_latch (w : Word) (a : Nat) : (s.raiseBound w a).latch = s.latch := rfl
@[simp] theorem raiseBound_status (w : Word) (a : Nat) : (s.raiseBound w a).status = { halted := true, cause := .memBoundData, faultPc := some s.pc, faultWord := some w, faultAddr := some (BitVec.ofNat 17 a) } := rfl
@[simp] theorem raiseBound_moved (w : Word) (a : Nat) : (s.raiseBound w a).moved = s.moved := rfl
@[simp] theorem raiseBound_k (w : Word) (a : Nat) : (s.raiseBound w a).k = s.k := rfl
@[simp] theorem raiseBound_params (w : Word) (a : Nat) : (s.raiseBound w a).params = s.params := rfl
@[simp] theorem raiseBound_draws (w : Word) (a : Nat) : (s.raiseBound w a).draws = s.draws := rfl
@[simp] theorem raiseBound_phase (w : Word) (a : Nat) : (s.raiseBound w a).phase = s.phase := rfl

/-! ### beginStep -/

@[simp] theorem beginStep_v : s.beginStep.v = s.v := rfl
@[simp] theorem beginStep_i : s.beginStep.i = s.i := rfl
@[simp] theorem beginStep_pc : s.beginStep.pc = s.pc := rfl
@[simp] theorem beginStep_stack : s.beginStep.stack = s.stack := rfl
@[simp] theorem beginStep_dt : s.beginStep.dt = s.dt := rfl
@[simp] theorem beginStep_st : s.beginStep.st = s.st := rfl
@[simp] theorem beginStep_mem : s.beginStep.mem = s.mem := rfl
@[simp] theorem beginStep_fb : s.beginStep.fb = s.fb := rfl
@[simp] theorem beginStep_latch : s.beginStep.latch = s.latch := rfl
@[simp] theorem beginStep_status : s.beginStep.status = s.status := rfl
@[simp] theorem beginStep_moved : s.beginStep.moved = false := rfl
@[simp] theorem beginStep_k : s.beginStep.k = s.k := rfl
@[simp] theorem beginStep_params : s.beginStep.params = s.params := rfl
@[simp] theorem beginStep_draws : s.beginStep.draws = s.draws := rfl
@[simp] theorem beginStep_phase : s.beginStep.phase = .running := rfl

/-! ### tick -/

@[simp] theorem tick_v : s.tick.v = s.v := rfl
@[simp] theorem tick_i : s.tick.i = s.i := rfl
@[simp] theorem tick_pc : s.tick.pc = s.pc := rfl
@[simp] theorem tick_stack : s.tick.stack = s.stack := rfl
@[simp] theorem tick_dt : s.tick.dt = tickByte s.dt := rfl
@[simp] theorem tick_st : s.tick.st = tickByte s.st := rfl
@[simp] theorem tick_mem : s.tick.mem = s.mem := rfl
@[simp] theorem tick_fb : s.tick.fb = s.fb := rfl
@[simp] theorem tick_latch : s.tick.latch = s.latch := rfl
@[simp] theorem tick_status : s.tick.status = s.status := rfl
@[simp] theorem tick_moved : s.tick.moved = s.moved := rfl
@[simp] theorem tick_k : s.tick.k = s.k := rfl
@[simp] theorem tick_params : s.tick.params = s.params := rfl
@[simp] theorem tick_draws : s.tick.draws = s.draws := rfl
@[simp] theorem tick_phase : s.tick.phase = s.phase := rfl

end Sys2Proof.Machine
end

