-- ==== Sys2Proof/Laws/Ops.lean ====
section
/-! SUPPORT. What each shared operation can do, said once: registers, frame-buffer cells, fault entry, the multi-byte loop. -/

namespace Sys2Proof.Machine

variable (s t : State)

/-! ## Reading through an update -/

theorem getV_congr {s t : State} (h : t.v = s.v) (j : Nibble) : t.getV j = s.getV j := by simp [State.getV, h]

theorem fbRead_congr {s t : State} (h : t.fb = s.fb) (j : Nat) : t.fbRead j = s.fbRead j := by simp [State.fbRead, h]

/-- A register read after a register write. -/
theorem getV_setV (j l : Nibble) (b : Byte) : (s.setV j b).getV l = if l = j then b else s.getV l := by
  unfold State.getV State.setV
  by_cases h : l = j
  · subst h; simp
  · have : j.toNat ≠ l.toNat := fun e => h (BitVec.eq_of_toNat_eq e.symm)
    simp [this, h]

@[simp] theorem getV_setV_self (j : Nibble) (b : Byte) : (s.setV j b).getV j = b := by simp [getV_setV]

theorem getV_setV_ne {j l : Nibble} (b : Byte) (h : l ≠ j) : (s.setV j b).getV l = s.getV l := by simp [getV_setV, h]

@[simp] theorem getV_setI (w : Word) (j : Nibble) : (s.setI w).getV j = s.getV j := rfl
@[simp] theorem getV_jump (w : Word) (j : Nibble) : (s.jump w).getV j = s.getV j := rfl
@[simp] theorem getV_setDt (b : Byte) (j : Nibble) : (s.setDt b).getV j = s.getV j := rfl
@[simp] theorem getV_setSt (b : Byte) (j : Nibble) : (s.setSt b).getV j = s.getV j := rfl
@[simp] theorem getV_setLatch (l : Option Nibble) (j : Nibble) : (s.setLatch l).getV j = s.getV j := rfl
@[simp] theorem getV_setStack (l : List Word) (j : Nibble) : (s.setStack l).getV j = s.getV j := rfl
@[simp] theorem getV_fbClear (j : Nibble) : s.fbClear.getV j = s.getV j := rfl
@[simp] theorem getV_fbToggle (n : Nat) (j : Nibble) : (s.fbToggle n).getV j = s.getV j := rfl
@[simp] theorem getV_drawByte (j : Nibble) : s.drawByte.2.getV j = s.getV j := rfl
@[simp] theorem getV_raise (c : Cause) (w : Option Word) (a : Option (BitVec 17)) (j : Nibble) :
    (s.raise c w a).getV j = s.getV j := rfl
@[simp] theorem getV_raiseBound (w : Word) (a : Nat) (j : Nibble) : (s.raiseBound w a).getV j = s.getV j := rfl
@[simp] theorem getV_beginStep (j : Nibble) : s.beginStep.getV j = s.getV j := rfl

/-- A cell read after a toggle. -/
theorem fbRead_fbToggle (n j : Nat) (h : n < 2048) :
    (s.fbToggle n).fbRead j = if j = n then !s.fbRead j else s.fbRead j := by
  simp only [State.fbRead, State.fbToggle, BitVec.getLsbD_xor, BitVec.getLsbD_twoPow]
  by_cases hj : j = n
  · subst hj; simp [h]
  · simp [hj, Ne.symm hj]

theorem fbRead_fbClear (j : Nat) : s.fbClear.fbRead j = false := by simp [State.fbRead]

theorem fbRead_out (j : Nat) (h : 2048 ≤ j) : s.fbRead j = false := by
  simp [State.fbRead, BitVec.getLsbD_of_ge _ _ h]

@[simp] theorem fbRead_setV (l : Nibble) (b : Byte) (j : Nat) : (s.setV l b).fbRead j = s.fbRead j := rfl

/-- A state is determined by its register file and frame buffer together with the rest. -/
theorem toggle_toggle (n : Nat) : (s.fbToggle n).fbToggle n = s := by
  simp [State.fbToggle]

/-! ## mapNext -/

@[simp] theorem mapNext_next (f : State → State) : mapNext f (.next s) = .next (f s) := rfl

theorem mapNext_eq_next {f : State → State} {o : Host.Outcome State Fault Refusal} :
    mapNext f o = .next t ↔ ∃ u, o = .next u ∧ f u = t := by
  cases o <;> simp [mapNext]

/-! ## The multi-byte loop (R89) -/

/-- `f` at offsets k, k+1, ..., n of them: what the loop does while its accesses are in range. -/
def iterOffsets (f : Nat → State → State) : Nat → Nat → State → State
  | 0, _, s => s
  | n + 1, k, s => iterOffsets f n (k + 1) (f k s)

/-- What a predicate needs to hold after the loop: the body and the raise keep it. -/
theorem forOffsets_keeps (P : State → Prop) {word : Word} {base : Nat} {body : Nat → State → Option State}
    (hbody : ∀ k s t, P s → body k s = some t → P t) (hraise : ∀ s a, P s → P (s.raiseBound word a))
    (n k : Nat) (s : State) (h : P s) : P (forOffsets word base body n k s) := by
  induction n generalizing k s with
  | zero => exact h
  | succ n ih =>
    unfold forOffsets
    split
    · exact ih _ _ (hbody _ _ _ h ‹_›)
    · exact hraise _ _ h

/-- What a relation to the start needs to hold after the loop. -/
theorem forOffsets_rel (R : State → State → Prop) {word : Word} {base : Nat} {body : Nat → State → Option State}
    (hrefl : ∀ s, R s s) (hbody : ∀ k r s t, R r s → body k s = some t → R r t)
    (hraise : ∀ r s a, R r s → R r (s.raiseBound word a)) (n k : Nat) (s : State) :
    R s (forOffsets word base body n k s) :=
  forOffsets_keeps (R s) (fun k a b h e => hbody k s a b h e) (fun a b h => hraise s a b h) n k s (hrefl s)

/-- A body that acts as `f` in range, keeping `base` right, and fails out of range. -/
structure OffsetBody (base : Nat) (body : Nat → State → Option State) (f : Nat → State → State) : Prop where
  keeps : ∀ k s, s.i.toNat = base → (f k s).i.toNat = base
  inRange : ∀ k s, s.i.toNat = base → base + k ≤ 0xFFF → body k s = some (f k s)
  outOfRange : ∀ k s, s.i.toNat = base → 0xFFF < base + k → body k s = none

/-- The loop, when all its accesses are in range. -/
theorem forOffsets_inRange {word : Word} {base : Nat} {body : Nat → State → Option State} {f : Nat → State → State}
    (hb : OffsetBody base body f) (n k : Nat) (s : State) (hs : s.i.toNat = base) (h : base + k + n ≤ 0x1000) :
    forOffsets word base body n k s = iterOffsets f n k s := by
  induction n generalizing k s with
  | zero => rfl
  | succ n ih =>
    rw [forOffsets, hb.inRange k s hs (by omega)]
    exact ih _ _ (hb.keeps k s hs) (by omega)

/-- The loop, when offset k + m is the first out of range: m accesses are done, then MemoryBound is taken. -/
theorem forOffsets_outOfRange {word : Word} {base : Nat} {body : Nat → State → Option State} {f : Nat → State → State}
    (hb : OffsetBody base body f) (n k m : Nat) (s : State) (hs : s.i.toNat = base) (hm : m < n)
    (hin : m = 0 ∨ base + k + m ≤ 0x1000) (hout : 0xFFF < base + k + m) :
    forOffsets word base body n k s = (iterOffsets f m k s).raiseBound word (base + k + m) := by
  induction n generalizing k s m with
  | zero => omega
  | succ n ih =>
    rw [forOffsets]
    cases m with
    | zero => rw [hb.outOfRange k s hs (by omega)]; simp [iterOffsets]
    | succ m =>
      rw [hb.inRange k s hs (by omega)]
      have := ih (k + 1) m (f k s) (hb.keeps k s hs) (by omega) (by omega) (by omega)
      simp only [iterOffsets]
      rw [this]
      congr 1
      omega

/-- Both at once: from offset 0, the loop does what is in range, and takes MemoryBound at the first address beyond. -/
theorem forOffsets_spec {word : Word} {base : Nat} {body : Nat → State → Option State} {f : Nat → State → State}
    (hb : OffsetBody base body f) (n : Nat) (s : State) (hs : s.i.toNat = base) :
    forOffsets word base body n 0 s =
      if base + n ≤ 0x1000 ∨ n = 0 then iterOffsets f n 0 s
      else (iterOffsets f (0x1000 - base) 0 s).raiseBound word (max base 0x1000) := by
  split
  · rename_i h
    rcases h with h | h
    · exact forOffsets_inRange hb n 0 s hs (by omega)
    · subst h; rfl
  · rw [forOffsets_outOfRange hb n 0 (0x1000 - base) s hs (by omega) (by omega) (by omega)]
    congr 1
    omega

/-- What the loop's in-range part keeps. -/
theorem iterOffsets_keeps (P : State → Prop) {f : Nat → State → State} (hf : ∀ k s, P s → P (f k s)) (n k : Nat)
    (s : State) (h : P s) : P (iterOffsets f n k s) := by
  induction n generalizing k s with
  | zero => exact h
  | succ n ih => exact ih _ _ (hf _ _ h)

/-! ## Stores and loads through the loop -/

/-- Storing val 0, val 1, ... at I, I + 1, ...: a block of memory, nothing else. -/
theorem iterOffsets_store (val : Nat → Byte) (base n k : Nat) (s : State) :
    iterOffsets (fun k t => { t with mem := t.mem.write (base + k) (val k) }) n k s =
      { s with mem := s.mem.writeBlock (base + k) ((List.range' k n).map val) } := by
  induction n generalizing k s with
  | zero => rfl
  | succ n ih => simp [iterOffsets, ih, List.range'_succ, Memory.writeBlock, Nat.add_assoc]

/-- Loading registers k .. k + n - 1 from base + k ..: those registers, nothing else. -/
theorem getV_iterOffsets_load (base n k : Nat) (s : State) (hk : k + n ≤ 16) (j : Nibble) :
    (iterOffsets (fun k t => t.setV (BitVec.ofNat 4 k) (t.mem.read (base + k))) n k s).getV j =
      if k ≤ j.toNat ∧ j.toNat < k + n then s.mem.read (base + j.toNat) else s.getV j := by
  induction n generalizing k s with
  | zero => rw [if_neg (by omega)]; rfl
  | succ n ih =>
    rw [iterOffsets, ih _ _ (by omega), getV_setV]
    have hj : j = BitVec.ofNat 4 k ↔ j.toNat = k := by
      constructor
      · rintro rfl; simp [BitVec.toNat_ofNat]; omega
      · intro h; apply BitVec.eq_of_toNat_eq; simp [BitVec.toNat_ofNat]; omega
    by_cases h1 : j.toNat = k
    · have h2 : ¬(k + 1 ≤ j.toNat ∧ j.toNat < k + 1 + n) := by omega
      have h3 : k ≤ j.toNat ∧ j.toNat < k + (n + 1) := by omega
      rw [if_neg h2, if_pos (hj.2 h1), if_pos h3, h1]
    · rw [if_neg (fun e => h1 (hj.1 e))]
      by_cases h2 : k + 1 ≤ j.toNat ∧ j.toNat < k + 1 + n
      · rw [if_pos h2, if_pos (by omega)]; rfl
      · rw [if_neg h2, if_neg (by omega)]

end Sys2Proof.Machine
end

