-- ==== Sys2Proof/Laws/Draw.lean ====
section
/-! SUPPORT. The sprite-drawing unit: a draw is a sequence of plots, one for each set sprite bit; no two of them meet the
same cell (R167), so what it does to each cell and to VF can be read off the set of cells. -/

namespace Sys2Proof.Machine

/-! ## One plot, and a list of them -/

/-- What drawing changes: VF and the frame buffer. -/
def DrawRel (s t : State) : Prop :=
  t = { s with v := t.v, fb := t.fb } ∧ ∀ j, j ≠ vF → t.getV j = s.getV j

theorem DrawRel.refl (s : State) : DrawRel s s := ⟨rfl, fun _ _ => rfl⟩

theorem DrawRel.trans {r s t : State} (h : DrawRel r s) (g : DrawRel s t) : DrawRel r t := by
  refine ⟨?_, fun j hj => (g.2 j hj).trans (h.2 j hj)⟩
  rw [g.1, h.1]

theorem DrawRel.mem {s t : State} (h : DrawRel s t) : t.mem = s.mem := by rw [h.1]
theorem DrawRel.i {s t : State} (h : DrawRel s t) : t.i = s.i := by rw [h.1]
theorem DrawRel.params {s t : State} (h : DrawRel s t) : t.params = s.params := by rw [h.1]

theorem setV_drawRel (s : State) (b : Byte) : DrawRel s (s.setV vF b) :=
  ⟨rfl, fun _ hj => getV_setV_ne s b hj⟩

theorem plot_drawRel (j : Nat) (s : State) : DrawRel s (plot j s) := by
  unfold plot
  split
  · exact ⟨rfl, fun l hl => getV_setV_ne s 1#8 hl⟩
  · exact ⟨rfl, fun _ _ => rfl⟩

theorem fbRead_plot (j l : Nat) (s : State) (h : j < 2048) :
    (plot j s).fbRead l = if l = j then !s.fbRead l else s.fbRead l := by
  unfold plot
  split
  · rw [fbRead_fbToggle _ _ _ h]; rfl
  · rw [fbRead_fbToggle _ _ _ h]

theorem getV_plot (j : Nat) (s : State) : (plot j s).getV vF = if s.fbRead j then 1#8 else s.getV vF := by
  unfold plot
  split <;> simp_all

/-- Plot the listed cells, in order. -/
def plots (l : List Nat) (s : State) : State := l.foldl (fun t j => plot j t) s

theorem plots_drawRel (l : List Nat) (s : State) : DrawRel s (plots l s) := by
  induction l generalizing s with
  | nil => exact .refl s
  | cons j l ih => exact (plot_drawRel j s).trans (ih (plot j s))

/-- Distinct cells plotted: each is toggled, no other. -/
theorem fbRead_plots (l : List Nat) (s : State) (hn : l.Nodup) (hl : ∀ j ∈ l, j < 2048) (k : Nat) :
    (plots l s).fbRead k = if k ∈ l then !s.fbRead k else s.fbRead k := by
  induction l generalizing s with
  | nil => simp [plots]
  | cons j l ih =>
    rw [List.nodup_cons] at hn
    have := ih (plot j s) hn.2 fun i hi => hl i (by simp [hi])
    rw [show plots (j :: l) s = plots l (plot j s) from rfl, this, fbRead_plot _ _ _ (hl j (by simp))]
    by_cases hk : k = j
    · subst hk; simp [hn.1]
    · simp [hk]

/-- Distinct cells plotted: VF becomes 1 if one of them was on, else it is kept. -/
theorem getV_plots (l : List Nat) (s : State) (hn : l.Nodup) (hl : ∀ j ∈ l, j < 2048) :
    (plots l s).getV vF = if ∃ j ∈ l, s.fbRead j = true then 1#8 else s.getV vF := by
  induction l generalizing s with
  | nil => simp [plots]
  | cons j l ih =>
    rw [List.nodup_cons] at hn
    rw [show plots (j :: l) s = plots l (plot j s) from rfl, ih _ hn.2 fun i hi => hl i (by simp [hi]), getV_plot]
    have hsame : ∀ i ∈ l, (plot j s).fbRead i = s.fbRead i := fun i hi => by
      have hij : i ≠ j := fun e => hn.1 (e ▸ hi)
      rw [fbRead_plot _ _ _ (hl j (by simp)), if_neg hij]
    have hex : (∃ i ∈ l, (plot j s).fbRead i = true) ↔ ∃ i ∈ l, s.fbRead i = true :=
      ⟨fun ⟨i, hi, h⟩ => ⟨i, hi, hsame i hi ▸ h⟩, fun ⟨i, hi, h⟩ => ⟨i, hi, (hsame i hi).symm ▸ h⟩⟩
    by_cases h1 : s.fbRead j = true <;> by_cases h2 : ∃ i ∈ l, s.fbRead i = true <;> simp [h1, h2, hex]

/-! ## A draw as a list of set bits -/

/-- The set bits of a row, as (row, column), left to right. -/
def rowBits (b : Byte) (row : Nat) : List (Nat × Nat) :=
  ([0, 1, 2, 3, 4, 5, 6, 7].filter (spriteBit b)).map fun col => (row, col)

/-- The set bits of rows k .. k + n - 1 of the sprite at base, in the order they are drawn. -/
def spriteBits (m : Memory) (base n k : Nat) : List (Nat × Nat) :=
  (List.range' k n).flatMap fun row => rowBits (m.read (base + row)) row

/-- Draw one set bit. -/
def plotBit (x y : Nibble) (cx cy : Nat) (s : State) (p : Nat × Nat) : State :=
  plot (pixelIndex (coordNow cx x s + p.2) (coordNow cy y s + p.1)) s

theorem plotBits_drawRel (x y : Nibble) (cx cy : Nat) (l : List (Nat × Nat)) (s : State) :
    DrawRel s (l.foldl (plotBit x y cx cy) s) := by
  induction l generalizing s with
  | nil => exact .refl s
  | cons p l ih => exact (plot_drawRel _ s).trans (ih _)

theorem drawRow_eq (x y : Nibble) (cx cy row : Nat) (b : Byte) (s : State) :
    drawRow x y cx cy row b s = (rowBits b row).foldl (plotBit x y cx cy) s := by
  have : ∀ (l : List Nat) (s : State), l.foldl (drawBit x y cx cy row b) s =
      ((l.filter (spriteBit b)).map fun col => (row, col)).foldl (plotBit x y cx cy) s := by
    intro l
    induction l with
    | nil => intro s; rfl
    | cons col l ih =>
      intro s
      by_cases h : spriteBit b col = true
      · simp [h, ih, drawBit, plotBit]
      · simp [h, ih, drawBit]
  exact this _ s

/-- Draw row `row` from the memory as it stands. -/
def drawRowIn (x y : Nibble) (cx cy row : Nat) (s : State) : State :=
  drawRow x y cx cy row (s.mem.read (s.addrAt row)) s

theorem drawRowIn_drawRel (x y : Nibble) (cx cy row : Nat) (s : State) : DrawRel s (drawRowIn x y cx cy row s) := by
  rw [drawRowIn, drawRow_eq]; exact plotBits_drawRel ..

theorem drawRowAt_body (x y : Nibble) (cx cy base : Nat) :
    OffsetBody base (drawRowAt x y cx cy) (drawRowIn x y cx cy) where
  keeps k s h := by rw [(drawRowIn_drawRel x y cx cy k s).i]; exact h
  inRange k s h hk := by simp [drawRowAt, drawRowIn, State.addrAt, h, State.memRead_eq _ _ hk]
  outOfRange k s h hk := by simp [drawRowAt, State.addrAt, h, State.memRead_none _ _ hk]

theorem iterRows_eq (x y : Nibble) (cx cy n k : Nat) (s : State) :
    iterOffsets (drawRowIn x y cx cy) n k s =
      (spriteBits s.mem s.i.toNat n k).foldl (plotBit x y cx cy) s := by
  induction n generalizing k s with
  | zero => rfl
  | succ n ih =>
    have h := drawRowIn_drawRel x y cx cy k s
    rw [iterOffsets, ih, h.mem, h.i]
    simp [spriteBits, List.range'_succ, List.foldl_append, drawRowIn, drawRow_eq, State.addrAt]

/-- Dxyn as a list of set bits: drawn in range, or up to the first row outside the memory and then MemoryBound. -/
theorem execDrw_eq (x y n : Nibble) (s : State) :
    execDrw x y n s = .next (
      let s0 := s.setV vF 0#8
      let bits := fun m => spriteBits s.mem s.i.toNat m 0
      if s.i.toNat + n.toNat ≤ 0x1000 ∨ n.toNat = 0 then
        (bits n.toNat).foldl (plotBit x y (s.getV x).toNat (s.getV y).toNat) s0
      else ((bits (0x1000 - s.i.toNat)).foldl (plotBit x y (s.getV x).toNat (s.getV y).toNat) s0).raiseBound
        (encode (.drw x y n)) (max s.i.toNat 0x1000)) := by
  rw [execDrw, forOffsets_spec (base := s.i.toNat) (drawRowAt_body x y _ _ _) n.toNat (s.setV vF 0#8) rfl]
  simp only [iterRows_eq]
  rfl

/-! ## No two bits meet (R167) -/

/-- Two bits of one sprite that reach the same cell are the same bit. -/
theorem pixelIndex_inj (X Y r₁ r₂ c₁ c₂ : Nat) (hr₁ : r₁ < 15) (hr₂ : r₂ < 15) (hc₁ : c₁ < 8) (hc₂ : c₂ < 8)
    (h : pixelIndex (X + c₁) (Y + r₁) = pixelIndex (X + c₂) (Y + r₂)) : r₁ = r₂ ∧ c₁ = c₂ := by
  unfold pixelIndex at h; omega

theorem pixelIndex_lt (X Y : Nat) : pixelIndex X Y < 2048 := Nat.mod_lt _ (by decide)

theorem mem_spriteBits (m : Memory) (base n k row col : Nat) :
    (row, col) ∈ spriteBits m base n k ↔
      k ≤ row ∧ row < k + n ∧ col < 8 ∧ (m.read (base + row)).getLsbD (7 - col) = true := by
  have h8 : ∀ c, c ∈ [0, 1, 2, 3, 4, 5, 6, 7] ↔ c < 8 := by intro c; simp; omega
  simp only [spriteBits, rowBits, List.mem_flatMap, List.mem_range'_1, List.mem_map, List.mem_filter, h8, spriteBit,
    Prod.mk.injEq]
  constructor
  · rintro ⟨r, ⟨h1, h2⟩, c, ⟨h3, h4⟩, rfl, rfl⟩; exact ⟨h1, h2, h3, h4⟩
  · rintro ⟨h1, h2, h3, h4⟩; exact ⟨row, ⟨h1, h2⟩, col, ⟨h3, h4⟩, rfl, rfl⟩

/-- The bits of a sprite stand in the order of their numbers 8 row + column. -/
theorem spriteBits_ordered (m : Memory) (base n k : Nat) :
    (spriteBits m base n k).Pairwise fun p q => 8 * p.1 + p.2 < 8 * q.1 + q.2 := by
  unfold spriteBits
  rw [List.pairwise_flatMap]
  refine ⟨fun row _ => ?_, ?_⟩
  · have h : ([0, 1, 2, 3, 4, 5, 6, 7] : List Nat).Pairwise (· < ·) := by decide
    exact List.pairwise_map.2 ((h.filter _).imp fun h => by simpa using h)
  · refine (List.pairwise_lt_range' (s := k) (n := n)).imp fun {a b} hab p hp q hq => ?_
    simp only [rowBits, List.mem_map, List.mem_filter] at hp hq
    obtain ⟨c, ⟨hc, _⟩, rfl⟩ := hp
    obtain ⟨d, _, rfl⟩ := hq
    have : c < 8 := by simp at hc; omega
    simp only
    omega

theorem nodup_spriteBits (m : Memory) (base n k : Nat) : (spriteBits m base n k).Nodup :=
  (spriteBits_ordered m base n k).imp fun {p q} h e => by subst e; omega

/-- A sprite's bits before and after one of them. -/
theorem spriteBits_split {m : Memory} {base n k : Nat} {p : Nat × Nat} (h : p ∈ spriteBits m base n k) :
    ∃ l r, spriteBits m base n k = l ++ p :: r ∧
      (∀ q, q ∈ l ↔ q ∈ spriteBits m base n k ∧ 8 * q.1 + q.2 < 8 * p.1 + p.2) ∧
      (∀ q, q ∈ r ↔ q ∈ spriteBits m base n k ∧ 8 * p.1 + p.2 < 8 * q.1 + q.2) := by
  obtain ⟨l, r, e⟩ := List.append_of_mem h
  have ho := spriteBits_ordered m base n k
  rw [e, List.pairwise_append, List.pairwise_cons] at ho
  obtain ⟨_, ⟨hr, _⟩, hl⟩ := ho
  refine ⟨l, r, e, fun q => ?_, fun q => ?_⟩ <;> rw [e] <;> simp only [List.mem_append, List.mem_cons] <;> constructor
  · exact fun hq => ⟨.inl hq, hl q hq p (by simp)⟩
  · rintro ⟨hq | rfl | hq, hlt⟩
    · exact hq
    · omega
    · have := hr q hq; omega
  · exact fun hq => ⟨.inr (.inr hq), hr q hq⟩
  · rintro ⟨hq | rfl | hq, hlt⟩
    · have := hl q hq p (by simp); omega
    · omega
    · exact hq

/-- The cells of a sprite drawn from column cx, row cy. -/
def spriteCells (m : Memory) (base n cx cy : Nat) : List Nat :=
  (spriteBits m base n 0).map fun p => pixelIndex (cx + p.2) (cy + p.1)

theorem mem_spriteCells (s : State) (cx cy n j : Nat) :
    j ∈ spriteCells s.mem s.i.toNat n cx cy ↔ SpriteHits s cx cy n j := by
  simp only [spriteCells, List.mem_map, SpriteHits, Prod.exists, mem_spriteBits, pixelIndex]
  constructor
  · rintro ⟨r, c, ⟨_, h1, h2, h3⟩, h4⟩; exact ⟨r, c, by omega, h2, h3, h4⟩
  · rintro ⟨r, c, h1, h2, h3, h4⟩; exact ⟨r, c, ⟨by omega, by omega, h2, h3⟩, h4⟩

theorem lt_of_mem_spriteCells {m : Memory} {base n cx cy j : Nat} (h : j ∈ spriteCells m base n cx cy) : j < 2048 := by
  obtain ⟨p, _, rfl⟩ := List.mem_map.1 h; exact pixelIndex_lt _ _

theorem nodup_spriteCells (m : Memory) (base n cx cy : Nat) (hn : n ≤ 15) : (spriteCells m base n cx cy).Nodup := by
  refine List.Nodup.map_on ?_ (nodup_spriteBits m base n 0)
  rintro ⟨r₁, c₁⟩ h₁ ⟨r₂, c₂⟩ h₂ h
  rw [mem_spriteBits] at h₁ h₂
  obtain ⟨rfl, rfl⟩ := pixelIndex_inj cx cy r₁ r₂ c₁ c₂ (by omega) (by omega) h₁.2.2.1 h₂.2.2.1 h
  rfl

/-! ## When the coordinates do not change during a draw -/

/-- Latched, or neither register is VF: the draw plots the cells of fixed coordinates. -/
theorem plotBits_fixed (x y : Nibble) (cx cy : Nat) (s : State) (l : List (Nat × Nat))
    (h : s.params.coordRead = .latched ∨ (x ≠ vF ∧ y ≠ vF ∧ (s.getV x).toNat = cx ∧ (s.getV y).toNat = cy)) :
    l.foldl (plotBit x y cx cy) s = plots (l.map fun p => pixelIndex (cx + p.2) (cy + p.1)) s := by
  induction l generalizing s with
  | nil => rfl
  | cons p l ih =>
    have hx : coordNow cx x s = cx := by
      rcases h with h | h
      · simp [coordNow, h]
      · unfold coordNow; split <;> simp_all
    have hy : coordNow cy y s = cy := by
      rcases h with h | h
      · simp [coordNow, h]
      · unfold coordNow; split <;> simp_all
    rw [List.foldl_cons, plotBit, hx, hy, List.map_cons, ih]
    · rfl
    · have hd := plot_drawRel (pixelIndex (cx + p.2) (cy + p.1)) s
      rcases h with h | ⟨h1, h2, h3, h4⟩
      · exact .inl (by rw [hd.params]; exact h)
      · exact .inr ⟨h1, h2, by rw [hd.2 _ h1]; exact h3, by rw [hd.2 _ h2]; exact h4⟩

/-- A live coordinate while VF holds f. -/
theorem coordNow_live {s : State} {x : Nibble} {c f : Nat} (latched : Nat) (hl : s.params.coordRead = .live)
    (hf : (s.getV vF).toNat = f) (hx : c = liveCoord s x f) : coordNow latched x s = c := by
  simp only [coordNow, hl, hx, liveCoord]
  by_cases h : x = vF
  · subst h; simpa using hf
  · simp [h]

/-- A plot leaves live coordinates as they are, for the same value of VF. -/
theorem liveCoord_drawRel {s t : State} (h : DrawRel s t) (x : Nibble) (f : Nat) : liveCoord t x f = liveCoord s x f := by
  unfold liveCoord
  split
  · rfl
  · rw [h.2 _ ‹_›]

/-- Live, VF = 0 and every cell still off: the draw plots the cells of the coordinates with VF read as 0. -/
theorem plotBits_live (x y : Nibble) (lx ly cx cy : Nat) (s : State) (l : List (Nat × Nat))
    (hl : s.params.coordRead = .live) (hf : s.getV vF = 0#8) (hx : cx = liveCoord s x 0) (hy : cy = liveCoord s y 0)
    (hn : (l.map fun p => pixelIndex (cx + p.2) (cy + p.1)).Nodup)
    (hoff : ∀ p ∈ l, s.fbRead (pixelIndex (cx + p.2) (cy + p.1)) = false) :
    l.foldl (plotBit x y lx ly) s = plots (l.map fun p => pixelIndex (cx + p.2) (cy + p.1)) s := by
  induction l generalizing s with
  | nil => rfl
  | cons p l ih =>
    have h0 : (s.getV vF).toNat = 0 := by rw [hf]; rfl
    rw [List.map_cons, List.nodup_cons] at hn
    have hd := plot_drawRel (pixelIndex (cx + p.2) (cy + p.1)) s
    rw [List.foldl_cons, plotBit, coordNow_live lx hl h0 hx, coordNow_live ly hl h0 hy, List.map_cons, ih]
    · rfl
    · rw [hd.params]; exact hl
    · rw [getV_plot, hoff p (by simp)]; simpa using hf
    · rw [liveCoord_drawRel hd]; exact hx
    · rw [liveCoord_drawRel hd]; exact hy
    · exact hn.2
    · intro q hq
      rw [fbRead_plot _ _ _ (pixelIndex_lt _ _), if_neg, hoff q (by simp [hq])]
      exact fun e => hn.1 (e ▸ List.mem_map_of_mem hq)

/-- Live, after a collision: VF stays 1, and the draw plots the cells of the coordinates with VF read as 1. -/
theorem plotBits_live_after (x y : Nibble) (lx ly cx cy : Nat) (s : State) (l : List (Nat × Nat))
    (hl : s.params.coordRead = .live) (hf : s.getV vF = 1#8) (hx : cx = liveCoord s x 1) (hy : cy = liveCoord s y 1) :
    l.foldl (plotBit x y lx ly) s = plots (l.map fun p => pixelIndex (cx + p.2) (cy + p.1)) s ∧
      (l.foldl (plotBit x y lx ly) s).getV vF = 1#8 := by
  induction l generalizing s with
  | nil => exact ⟨rfl, hf⟩
  | cons p l ih =>
    have h1 : (s.getV vF).toNat = 1 := by rw [hf]; rfl
    have hd := plot_drawRel (pixelIndex (cx + p.2) (cy + p.1)) s
    have := ih (plot (pixelIndex (cx + p.2) (cy + p.1)) s) (by rw [hd.params]; exact hl)
      (by rw [getV_plot, hf]; simp) (by rw [liveCoord_drawRel hd]; exact hx) (by rw [liveCoord_drawRel hd]; exact hy)
    rw [List.foldl_cons, plotBit, coordNow_live lx hl h1 hx, coordNow_live ly hl h1 hy]
    exact this

end Sys2Proof.Machine
end

