-- ==== Sys2Proof/Laws/IndexMem.lean ====
section
/-! SUPPORT. Fx33, Fx55 and Fx65 without their loop: a block of memory written, or registers loaded, as far as the
addresses lie in the memory, and MemoryBound at the first address beyond. -/

namespace Sys2Proof.Machine

/-- How many of n accesses at I.. are in range. -/
def inRange (s : State) (n : Nat) : Nat := if s.i.toNat + n ≤ 0x1000 then n else 0x1000 - s.i.toNat

/-- STATUS after n accesses at I.. by the instruction with this word. -/
def boundAfter (s : State) (word : Word) (n : Nat) : Status :=
  if s.i.toNat + n ≤ 0x1000 then s.status else boundStatus s.pc s.i word

/-- A loop of n > 0 accesses: its in-range part, and STATUS. -/
theorem forOffsets_status {word : Word} {body : Nat → State → Option State} {f : Nat → State → State} {s : State}
    (hb : OffsetBody s.i.toNat body f) (n : Nat) (hn : 0 < n)
    (hk : ∀ m, (iterOffsets f m 0 s).pc = s.pc ∧ (iterOffsets f m 0 s).status = s.status) :
    forOffsets word s.i.toNat body n 0 s =
      { iterOffsets f (inRange s n) 0 s with status := boundAfter s word n } := by
  rw [forOffsets_spec hb n s rfl]
  by_cases h : s.i.toNat + n ≤ 0x1000
  · rw [if_pos (.inl h), inRange, if_pos h, boundAfter, if_pos h, ← (hk n).2]
  · rw [if_neg (by omega), inRange, if_neg h, boundAfter, if_neg h]
    simp only [State.raiseBound, State.raise, (hk _).1, boundStatus]

theorem memWrite_body (base : Nat) (val : Nat → Byte) :
    OffsetBody base (fun k t => t.memWrite (t.addrAt k) (val k))
      (fun k t => { t with mem := t.mem.write (base + k) (val k) }) where
  keeps _ _ h := h
  inRange k s h hk := by simp only [State.addrAt, h]; exact State.memWrite_eq _ _ _ hk
  outOfRange k s h hk := by simp only [State.addrAt, h]; exact State.memWrite_none _ _ _ hk

/-- Storing val 0, ..., val (n - 1) at I..: everything the loop does. -/
theorem forOffsets_store (s : State) (word : Word) (val : Nat → Byte) (n : Nat) (hn : 0 < n) :
    forOffsets word s.i.toNat (fun k t => t.memWrite (t.addrAt k) (val k)) n 0 s =
      { s with
        mem := s.mem.writeBlock s.i.toNat ((List.range' 0 (inRange s n)).map val)
        status := boundAfter s word n } := by
  rw [forOffsets_status (memWrite_body s.i.toNat val) n hn (fun m => by rw [iterOffsets_store]; exact ⟨rfl, rfl⟩),
    iterOffsets_store, Nat.add_zero]

/-- The loop with a body that agrees on every state with this V and this I is the same loop. -/
theorem forOffsets_congr {word : Word} {base : Nat} {b c : Nat → State → Option State} (P : State → Prop)
    (hbc : ∀ k s, P s → b k s = c k s) (hP : ∀ k s t, P s → c k s = some t → P t) (n k : Nat) (s : State) (h : P s) :
    forOffsets word base b n k s = forOffsets word base c n k s := by
  induction n generalizing k s with
  | zero => rfl
  | succ n ih =>
    simp only [forOffsets, hbc k s h]
    split
    · exact ih _ _ (hP _ _ _ h ‹_›)
    · rfl

/-- Fx33 (R264). -/
theorem execLdB_eq (x : Nibble) (s : State) :
    execLdB x s = .next { s with
      mem := s.mem.writeBlock s.i.toNat ((List.range' 0 (inRange s 3)).map (bcdDigit (s.getV x)))
      status := boundAfter s (encode (.ldB x)) 3 } := by
  rw [execLdB, forOffsets_store _ _ _ _ (by decide)]

/-- Fx55 (R265). -/
theorem execStRegs_eq (x : Nibble) (s : State) :
    execStRegs x s = .next { s with
      mem := s.mem.writeBlock s.i.toNat
        ((List.range' 0 (inRange s (x.toNat + 1))).map fun k => s.getV (BitVec.ofNat 4 k))
      status := boundAfter s (encode (.stRegs x)) (x.toNat + 1) } := by
  rw [execStRegs, ← forOffsets_store _ _ _ _ (by omega)]
  congr 1
  refine forOffsets_congr (fun t => t.v = s.v) (fun k t h => ?_) (fun k t u h e => ?_) _ _ _ rfl
  · simp only [getV_congr h]
  · by_cases ha : t.addrAt k ≤ 0xFFF
    · rw [State.memWrite_eq _ _ _ ha] at e; cases e; exact h
    · rw [State.memWrite_none _ _ _ (by omega)] at e; cases e

theorem load_body (base : Nat) :
    OffsetBody base (fun k t => (t.memRead (t.addrAt k)).map fun b => t.setV (BitVec.ofNat 4 k) b)
      (fun k t => t.setV (BitVec.ofNat 4 k) (t.mem.read (base + k))) where
  keeps _ _ h := h
  inRange k s h hk := by simp [State.addrAt, h, State.memRead_eq _ _ hk]
  outOfRange k s h hk := by simp [State.addrAt, h, State.memRead_none _ _ hk]

/-- The loading loop changes the register file only. -/
theorem iterOffsets_load_frame (base n k : Nat) (s : State) :
    iterOffsets (fun k t => t.setV (BitVec.ofNat 4 k) (t.mem.read (base + k))) n k s =
      { s with v := (iterOffsets (fun k t => t.setV (BitVec.ofNat 4 k) (t.mem.read (base + k))) n k s).v } := by
  refine iterOffsets_keeps (fun t => t = { s with v := t.v }) (fun k t h => ?_) n k s rfl
  rw [h]; rfl

/-- Fx65 (R266). -/
theorem execLdRegs_eq (x : Nibble) (s : State) :
    ∃ t, execLdRegs x s = .next t ∧
      t = { s with v := t.v, status := boundAfter s (encode (.ldRegs x)) (x.toNat + 1) } ∧
      ∀ j, t.getV j =
        if j.toNat < inRange s (x.toNat + 1) then s.mem.read (s.i.toNat + j.toNat) else s.getV j := by
  refine ⟨_, rfl, ?_⟩
  rw [forOffsets_status (load_body s.i.toNat) _ (by omega)
    (fun m => by rw [iterOffsets_load_frame]; exact ⟨rfl, rfl⟩)]
  refine ⟨?_, fun j => ?_⟩
  · rw [iterOffsets_load_frame]
  · have hx := x.isLt
    have hr : inRange s (x.toNat + 1) ≤ x.toNat + 1 := by unfold inRange; split <;> omega
    have := getV_iterOffsets_load s.i.toNat (inRange s (x.toNat + 1)) 0 s (by omega) j
    simp only [Nat.zero_add, Nat.zero_le, true_and] at this
    exact this

end Sys2Proof.Machine
end

