-- ==== Sys2Proof/Laws/Step.lean ====
section
/-! SUPPORT. What a step can do, said once: exec always answers a next state, and a step is one of four things. -/

namespace Sys2Proof.Machine

/-- Every meaning answers a next state: nothing in the instruction set stops the model. -/
theorem exec_next (i : Instr) (s : State) : ∃ t, exec i s = .next t := by
  cases i with
  | ret => simp only [exec, execRet]; split <;> exact ⟨_, rfl⟩
  | call n => simp only [exec, execCall]; split <;> exact ⟨_, rfl⟩
  | skp x => simp only [exec, execSkp]; split <;> exact ⟨_, rfl⟩
  | _ => exact ⟨_, rfl⟩

/-- The fetch reads the two bytes at PC (R142). -/
theorem fetchWord_eq_some {s : State} {w : Word} :
    s.fetchWord = some w ↔
      ∃ hi lo, s.memRead s.pc.toNat = some hi ∧ s.memRead (s.pc.toNat + 1) = some lo ∧ joinBytes hi lo = w := by
  unfold State.fetchWord State.memRead
  by_cases h : s.pc.toNat ≤ 0xFFE
  · simp [h, show s.pc.toNat ≤ 0xFFF by omega, show s.pc.toNat + 1 ≤ 0xFFF by omega]
  · simp [h, show ¬ s.pc.toNat + 1 ≤ 0xFFF by omega]

theorem fetchWord_eq_none {s : State} : s.fetchWord = none ↔ 0xFFE < s.pc.toNat := by
  unfold State.fetchWord; split <;> simp <;> omega

@[simp] theorem fetchWord_beginStep (s : State) : s.beginStep.fetchWord = s.fetchWord := rfl

/-- The one inversion of a step: the machine was halted; or the fetch faulted; or the decode did; or the instruction ran. -/
theorem step_cases {s t : State} (h : step s = .next t) :
    (s.status.halted = true ∧ t = s) ∨
    (s.status.halted = false ∧ 0xFFE < s.pc.toNat ∧ t = s.beginStep.raiseFetch) ∨
    (s.status.halted = false ∧ s.pc.toNat ≤ 0xFFE ∧ ∃ w e, s.fetchWord = some w ∧
      decode s.params.lownib w = .error e ∧ t = s.beginStep.raiseDecode w) ∨
    (s.status.halted = false ∧ s.pc.toNat ≤ 0xFFE ∧ ∃ w i u, s.fetchWord = some w ∧
      decode s.params.lownib w = .ok i ∧ exec i s.beginStep = .next u ∧ t = u.advance.countStep) := by
  unfold step at h
  by_cases hh : s.status.halted = true
  · rw [if_pos hh] at h; cases h; exact .inl ⟨hh, rfl⟩
  · rw [if_neg hh] at h
    have hf : s.status.halted = false := by simpa using hh
    refine .inr ?_
    unfold instrStep at h
    rw [fetchWord_beginStep] at h
    cases hw : s.fetchWord with
    | none =>
      rw [hw] at h
      cases h
      exact .inl ⟨hf, fetchWord_eq_none.1 hw, rfl⟩
    | some w =>
      have hpc : s.pc.toNat ≤ 0xFFE := by
        by_contra hc; rw [fetchWord_eq_none.2 (by omega)] at hw; cases hw
      rw [hw] at h
      simp only at h
      cases hd : decode s.params.lownib w with
      | error e =>
        rw [hd] at h
        cases h
        exact .inr (.inl ⟨hf, hpc, w, e, rfl, hd, rfl⟩)
      | ok i =>
        rw [hd] at h
        obtain ⟨u, hu⟩ := exec_next i s.beginStep
        simp only [hu, mapNext_next] at h
        cases h
        exact .inr (.inr ⟨hf, hpc, w, i, u, rfl, hd, hu, rfl⟩)

/-- What AboutToRun says of the fetch and the decoder. -/
theorem aboutToRun_fetch {s : State} {i : Instr} (h : s.AboutToRun i) :
    s.pc.toNat ≤ 0xFFE ∧ ∃ w, s.fetchWord = some w ∧ decode s.params.lownib w = .ok i := by
  obtain ⟨hi, lo, h1, h2, h3⟩ := h
  have hw : s.fetchWord = some (joinBytes hi lo) := fetchWord_eq_some.2 ⟨hi, lo, h1, h2, rfl⟩
  refine ⟨?_, _, hw, h3⟩
  by_contra hc
  rw [fetchWord_eq_none.2 (by omega)] at hw
  cases hw

/-- A step on a word that decodes runs that instruction. -/
theorem step_run {s u : State} {w : Word} {i : Instr} (hh : s.status.halted = false) (hw : s.fetchWord = some w)
    (hd : decode s.params.lownib w = .ok i) (hu : exec i s.beginStep = .next u) :
    step s = .next u.advance.countStep := by
  simp [step, hh, instrStep, hw, hd, hu]

/-- The word that withFetchWord places is the one the next step fetches. -/
theorem fetchWord_withFetchWord (s : State) (nbits w : Nat) (h : s.pc.toNat ≤ 0xFFE) :
    (s.withFetchWord nbits w).fetchWord = some (tableWord nbits w) := by
  simp [State.withFetchWord, h, State.fetchWord, Memory.read_writeBlock]

/-- withFetchWord changes no byte but the two at PC. -/
theorem memRead_withFetchWord (s : State) (nbits w a : Nat) (h : a < s.pc.toNat ∨ s.pc.toNat + 2 ≤ a) :
    (s.withFetchWord nbits w).memRead a = s.memRead a := by
  unfold State.withFetchWord
  split
  · have : ¬(s.pc.toNat ≤ a ∧ a < s.pc.toNat + 2) := by omega
    simp [State.memRead, Memory.read_writeBlock, this]
  · rfl

end Sys2Proof.Machine
end

