-- ==== Sys2Proof/Laws/Exec.lean ====
section
/-! SUPPORT. What the meanings share: the shape of what Dxyn and Fx65 leave, the two write orders, and that an update of a
field no instruction sees commutes with every instruction that neither reads nor writes it. -/

namespace Sys2Proof.Machine

/-! ## Shapes -/

/-- Dxyn: VF and frame-buffer cells change, and on an access beyond the memory MemoryBound is taken. -/
theorem execDrw_shape {x y n : Nibble} {s t : State} (h : execDrw x y n s = .next t) :
    ∃ u, DrawRel s u ∧ (t = u ∨ t = u.raiseBound (encode (.drw x y n)) (max s.i.toNat 0x1000)) := by
  rw [execDrw_eq] at h
  cases h
  dsimp only
  split
  · exact ⟨_, (setV_drawRel s 0#8).trans (plotBits_drawRel ..), .inl rfl⟩
  · exact ⟨_, (setV_drawRel s 0#8).trans (plotBits_drawRel ..), .inr rfl⟩

/-- Fx65: the registers in range are loaded, the others kept, and STATUS. -/
theorem execLdRegs_shape {x : Nibble} {s t : State} (h : execLdRegs x s = .next t) :
    t = { s with v := t.v, status := boundAfter s (encode (.ldRegs x)) (x.toNat + 1) } ∧
      ∀ j, t.getV j =
        if j.toNat < inRange s (x.toNat + 1) then s.mem.read (s.i.toNat + j.toNat) else s.getV j := by
  obtain ⟨u, hu, h1, h2⟩ := execLdRegs_eq x s
  rw [h] at hu
  cases hu
  exact ⟨h1, h2⟩

/-- writeResult changes the register file alone. -/
theorem writeResult_frame (s : State) (o : WriteOrder) (x : Nibble) (r : Byte) (f : Bool) :
    s.writeResult o x r f = { s with v := (s.writeResult o x r f).v } := by cases o <;> rfl

/-- What each register holds after writeResult (R221). -/
theorem getV_writeResult (s : State) (o : WriteOrder) (x : Nibble) (r : Byte) (f : Bool) (j : Nibble) :
    (s.writeResult o x r f).getV j = resultV o x r (flagByte f) s j := by
  cases o <;> simp [State.writeResult, resultV, getV_setV]

/-- writeShift changes the register file alone. -/
theorem writeShift_frame (s : State) (o : WriteOrder) (x : Nibble) (out : Byte → Bool) (sh : Byte → Byte) :
    s.writeShift o x out sh = { s with v := (s.writeShift o x out sh).v } := by cases o <;> rfl

/-- writeShift of a register other than VF: the same in both orders. -/
theorem getV_writeShift (s : State) (o : WriteOrder) (x : Nibble) (out : Byte → Bool) (sh : Byte → Byte) (hx : x ≠ vF)
    (j : Nibble) : (s.writeShift o x out sh).getV j =
      if j = vF then flagByte (out (s.getV x)) else if j = x then sh (s.getV x) else s.getV j := by
  cases o
  · simp [State.writeShift, getV_setV]
  · simp only [State.writeShift, getV_setV, if_neg hx]
    by_cases h : j = x
    · subst h; simp [hx]
    · simp [h]

/-! ## Updates no instruction sees -/

/-- g touches nothing that exec reads, and commutes with every operation that writes (for instructions other than 2nnn,
00EE and Fx18, whose operations are not listed). -/
structure Unseen (g : State → State) : Prop where
  getV : ∀ s j, (g s).getV j = s.getV j
  i : ∀ s, (g s).i = s.i
  pc : ∀ s, (g s).pc = s.pc
  dt : ∀ s, (g s).dt = s.dt
  mem : ∀ s, (g s).mem = s.mem
  fbRead : ∀ s j, (g s).fbRead j = s.fbRead j
  latch : ∀ s, (g s).latch = s.latch
  params : ∀ s, (g s).params = s.params
  setV : ∀ s j b, (g s).setV j b = g (s.setV j b)
  setI : ∀ s w, (g s).setI w = g (s.setI w)
  jump : ∀ s w, (g s).jump w = g (s.jump w)
  setDt : ∀ s b, (g s).setDt b = g (s.setDt b)
  setMem : ∀ (s : State) m, ({ g s with mem := m } : State) = g { s with mem := m }
  fbClear : ∀ s, (g s).fbClear = g s.fbClear
  fbToggle : ∀ s j, (g s).fbToggle j = g (s.fbToggle j)
  setLatch : ∀ s l, (g s).setLatch l = g (s.setLatch l)
  raise : ∀ s c w a, (g s).raise c w a = g (s.raise c w a)
  drawByte : ∀ s, (g s).drawByte = (s.drawByte.1, g s.drawByte.2)

variable {g : State → State}

theorem Unseen.memRead (h : Unseen g) (s : State) (a : Nat) : (g s).memRead a = s.memRead a :=
  State.memRead_congr (h.mem s) a

theorem Unseen.memWrite (h : Unseen g) (s : State) (a : Nat) (b : Byte) :
    (g s).memWrite a b = (s.memWrite a b).map g := by
  unfold State.memWrite
  split
  · simp [h.mem, h.setMem]
  · rfl

theorem Unseen.forOffsets (h : Unseen g) {word : Word} {base : Nat} {body body' : Nat → State → Option State}
    (hb : ∀ k s, body' k (g s) = (body k s).map g) (n k : Nat) (s : State) :
    forOffsets word base body' n k (g s) = g (forOffsets word base body n k s) := by
  induction n generalizing k s with
  | zero => rfl
  | succ n ih =>
    simp only [Machine.forOffsets, hb]
    cases body k s with
    | none => exact h.raise _ _ _ _
    | some t => exact ih _ _

theorem Unseen.plot (h : Unseen g) (j : Nat) (s : State) : plot j (g s) = g (plot j s) := by
  unfold Machine.plot
  rw [h.fbRead]
  split
  · rw [h.setV, h.fbToggle]
  · rw [h.fbToggle]

theorem Unseen.drawRow (h : Unseen g) (x y : Nibble) (cx cy row : Nat) (b : Byte) (s : State) :
    drawRow x y cx cy row b (g s) = g (drawRow x y cx cy row b s) := by
  have : ∀ (l : List Nat) (s : State),
      l.foldl (drawBit x y cx cy row b) (g s) = g (l.foldl (drawBit x y cx cy row b) s) := by
    intro l
    induction l with
    | nil => intro s; rfl
    | cons c l ih =>
      intro s
      rw [List.foldl_cons, List.foldl_cons, ← ih]
      congr 1
      unfold drawBit coordNow
      rw [h.params, h.getV, h.getV]
      split
      · exact h.plot _ _
      · rfl
  exact this _ s

theorem Unseen.keyHit (h : Unseen g) (s : State) (x : Nibble) : (g s).keyHit x = s.keyHit x := by
  unfold State.keyHit
  rw [h.params, h.latch, h.getV]

theorem Unseen.skipIf (h : Unseen g) (s : State) (c : Bool) : (g s).skipIf c = g (s.skipIf c) := by
  cases c
  · rfl
  · simp [State.skipIf, h.pc, h.jump]

/-- An update that is unseen commutes with exec. -/
theorem Unseen.exec (h : Unseen g) (i : Instr) (s : State) (hst : ∀ x, i ≠ .ldStVx x) (hcall : ∀ n, i ≠ .call n)
    (hret : i ≠ .ret) : exec i (g s) = mapNext g (exec i s) := by
  cases i with
  | ldStVx x => exact (hst x rfl).elim
  | call n => exact (hcall n rfl).elim
  | ret => exact (hret rfl).elim
  | drw x y n =>
    simp only [Machine.exec, execDrw, h.getV, h.i, h.setV, mapNext_next]
    congr 1
    refine h.forOffsets (fun k s => ?_) _ _ _
    simp only [drawRowAt, State.addrAt, h.i, h.memRead, Option.map_map]
    congr 1
    funext b
    exact h.drawRow _ _ _ _ _ _ _
  | ldB x =>
    simp only [Machine.exec, execLdB, h.getV, h.i, mapNext_next]
    congr 1
    exact h.forOffsets (fun k s => by simp only [State.addrAt, h.i, h.memWrite]) _ _ _
  | stRegs x =>
    simp only [Machine.exec, execStRegs, h.i, mapNext_next]
    congr 1
    exact h.forOffsets (fun k s => by simp only [State.addrAt, h.i, h.memWrite, h.getV]) _ _ _
  | ldRegs x =>
    simp only [Machine.exec, execLdRegs, h.i, mapNext_next]
    congr 1
    refine h.forOffsets (fun k s => ?_) _ _ _
    simp only [State.addrAt, h.i, h.memRead, Option.map_map]
    congr 1
    funext b
    exact h.setV _ _ _
  | skp x =>
    simp only [Machine.exec, execSkp, h.keyHit, h.pc, h.jump, h.setLatch]
    split <;> rfl
  | seImm => simp only [Machine.exec, execSeImm, h.getV, h.skipIf, mapNext_next]
  | sneImm => simp only [Machine.exec, execSneImm, h.getV, h.skipIf, mapNext_next]
  | seReg => simp only [Machine.exec, execSeReg, h.getV, h.skipIf, mapNext_next]
  | sneReg => simp only [Machine.exec, execSneReg, h.getV, h.skipIf, mapNext_next]
  | sknp => simp only [Machine.exec, execSknp, h.keyHit, h.skipIf, mapNext_next]
  | addReg | subReg | subnReg =>
    simp only [Machine.exec, execAddReg, execSubReg, execSubnReg, State.writeResult, h.params, h.getV, mapNext_next]
    split <;> simp [h.setV]
  | shr | shl =>
    simp only [Machine.exec, execShr, execShl, State.writeShift, h.params, h.getV, mapNext_next]
    split <;> simp [h.setV, h.getV]
  | rnd x nn => simp [Machine.exec, execRnd, h.drawByte, h.setV]
  | cls => simp [Machine.exec, execCls, h.fbClear]
  | jp => simp [Machine.exec, execJp, h.jump]
  | jpV0 => simp [Machine.exec, execJpV0, indexedTarget, h.getV, h.jump]
  | ldI => simp [Machine.exec, execLdI, h.setI]
  | addI => simp [Machine.exec, execAddI, h.setI, h.getV, h.i]
  | ldF => simp [Machine.exec, execLdF, h.setI, h.getV]
  | ldVxDt => simp [Machine.exec, execLdVxDt, h.dt, h.setV]
  | ldDtVx => simp [Machine.exec, execLdDtVx, h.getV, h.setDt]
  | ldImm => simp [Machine.exec, execLdImm, h.setV]
  | addImm => simp [Machine.exec, execAddImm, h.setV, h.getV]
  | ldReg => simp [Machine.exec, execLdReg, h.setV, h.getV]
  | orReg => simp [Machine.exec, execOrReg, h.setV, h.getV]
  | andReg => simp [Machine.exec, execAndReg, h.setV, h.getV]
  | xorReg => simp [Machine.exec, execXorReg, h.setV, h.getV]

/-! ## Invariants of the shared operations -/

/-- A loop that stores keeps the canonical memory. -/
theorem forOffsets_memWf {word : Word} {base : Nat} {body : Nat → State → Option State}
    (hb : ∀ k s t, s.mem.wf = true → body k s = some t → t.mem.wf = true) (n k : Nat) (s : State)
    (h : s.mem.wf = true) : (forOffsets word base body n k s).mem.wf = true :=
  forOffsets_keeps (fun s => s.mem.wf = true) (fun k s t h e => hb k s t h e) (fun _ _ h => h) n k s h

end Sys2Proof.Machine
end

