-- ==== Sys2Proof/Laws/PerInstr.lean ====
section
/-! SUPPORT. A fact about every instruction as syntax, one lemma per constructor: its word has the fixed bits of its row of
spec/opcode_table.json. -/

namespace Sys2Proof.Laws.OpcodeRow

/-- The row's "match" in spec/opcode_table.json. -/
def matchBits : Instr → Word
  | .cls => 0x00E0#16
  | .ret => 0x00EE#16
  | .jp _ => 0x1000#16
  | .call _ => 0x2000#16
  | .seImm _ _ => 0x3000#16
  | .sneImm _ _ => 0x4000#16
  | .seReg _ _ => 0x5000#16
  | .ldImm _ _ => 0x6000#16
  | .addImm _ _ => 0x7000#16
  | .ldReg _ _ => 0x8000#16
  | .orReg _ _ => 0x8001#16
  | .andReg _ _ => 0x8002#16
  | .xorReg _ _ => 0x8003#16
  | .addReg _ _ => 0x8004#16
  | .subReg _ _ => 0x8005#16
  | .shr _ _ => 0x8006#16
  | .subnReg _ _ => 0x8007#16
  | .shl _ _ => 0x800E#16
  | .sneReg _ _ => 0x9000#16
  | .ldI _ => 0xA000#16
  | .jpV0 _ => 0xB000#16
  | .rnd _ _ => 0xC000#16
  | .drw _ _ _ => 0xD000#16
  | .skp _ => 0xE09E#16
  | .sknp _ => 0xE0A1#16
  | .ldVxDt _ => 0xF007#16
  | .ldDtVx _ => 0xF015#16
  | .ldStVx _ => 0xF018#16
  | .addI _ => 0xF01E#16
  | .ldF _ => 0xF029#16
  | .ldB _ => 0xF033#16
  | .stRegs _ => 0xF055#16
  | .ldRegs _ => 0xF065#16

/-- The row's "mask" in spec/opcode_table.json (of LOWNIB_POLICY = fault). -/
def maskBits : Instr → Word
  | .cls => 0xFFFF#16
  | .ret => 0xFFFF#16
  | .jp _ => 0xF000#16
  | .call _ => 0xF000#16
  | .seImm _ _ => 0xF000#16
  | .sneImm _ _ => 0xF000#16
  | .seReg _ _ => 0xF00F#16
  | .ldImm _ _ => 0xF000#16
  | .addImm _ _ => 0xF000#16
  | .ldReg _ _ => 0xF00F#16
  | .orReg _ _ => 0xF00F#16
  | .andReg _ _ => 0xF00F#16
  | .xorReg _ _ => 0xF00F#16
  | .addReg _ _ => 0xF00F#16
  | .subReg _ _ => 0xF00F#16
  | .shr _ _ => 0xF00F#16
  | .subnReg _ _ => 0xF00F#16
  | .shl _ _ => 0xF00F#16
  | .sneReg _ _ => 0xF00F#16
  | .ldI _ => 0xF000#16
  | .jpV0 _ => 0xF000#16
  | .rnd _ _ => 0xF000#16
  | .drw _ _ _ => 0xF000#16
  | .skp _ => 0xF0FF#16
  | .sknp _ => 0xF0FF#16
  | .ldVxDt _ => 0xF0FF#16
  | .ldDtVx _ => 0xF0FF#16
  | .ldStVx _ => 0xF0FF#16
  | .addI _ => 0xF0FF#16
  | .ldF _ => 0xF0FF#16
  | .ldB _ => 0xF0FF#16
  | .stRegs _ => 0xF0FF#16
  | .ldRegs _ => 0xF0FF#16

/-- The word of an instruction lies in the row of its constructor. -/
def Statement (i : Instr) : Prop := encode i &&& maskBits i = matchBits i

/-! ## A word under the four masks -/

theorem nibble_and_ones (a : Nibble) : a &&& 0xF#4 = a := by revert a; decide

theorem byte_and_ones (a : Byte) : a &&& 0xFF#8 = a := BitVec.and_allOnes

theorem nibble_and_zero (a : Nibble) : a &&& 0x0#4 = 0x0#4 := BitVec.and_zero

theorem mask_wordNNN (op : Nibble) (nnn : Addr) : wordNNN op nnn &&& 0xF000#16 = wordNNN op 0x000#12 :=
  (BitVec.and_append (x₁ := op) (x₂ := 0xF#4) (y₁ := nnn) (y₂ := 0#12)).trans
    (congrArg₂ (fun a b => wordNNN a b) (nibble_and_ones op) BitVec.and_zero)

theorem and_wordXNN (op x a b : Nibble) (nn c : Byte) :
    wordXNN op x nn &&& wordXNN a b c = wordXNN (op &&& a) (x &&& b) (nn &&& c) :=
  (BitVec.and_append (x₁ := op ++ x) (x₂ := a ++ b) (y₁ := nn) (y₂ := c)).trans
    (congrArg (fun w : BitVec 8 => (w ++ (nn &&& c) : Word)) BitVec.and_append)

theorem and_wordXYN (op x y n a b c d : Nibble) :
    wordXYN op x y n &&& wordXYN a b c d = wordXYN (op &&& a) (x &&& b) (y &&& c) (n &&& d) :=
  (BitVec.and_append (x₁ := op ++ x ++ y) (x₂ := a ++ b ++ c) (y₁ := n) (y₂ := d)).trans
    (congrArg (fun w : BitVec 12 => (w ++ (n &&& d) : Word))
      ((BitVec.and_append (x₁ := op ++ x) (x₂ := a ++ b) (y₁ := y) (y₂ := c)).trans
        (congrArg (fun w : BitVec 8 => (w ++ (y &&& c) : BitVec 12)) BitVec.and_append)))

theorem maskOp_wordXNN (op x : Nibble) (nn : Byte) : wordXNN op x nn &&& 0xF000#16 = wordXNN op 0x0#4 0x00#8 :=
  (and_wordXNN op x 0xF#4 0x0#4 nn 0x00#8).trans (by rw [nibble_and_ones, nibble_and_zero, BitVec.and_zero])

theorem maskOpNn_wordXNN (op x : Nibble) (nn : Byte) : wordXNN op x nn &&& 0xF0FF#16 = wordXNN op 0x0#4 nn :=
  (and_wordXNN op x 0xF#4 0x0#4 nn 0xFF#8).trans (by rw [nibble_and_ones, nibble_and_zero, byte_and_ones])

theorem maskOp_wordXYN (op x y n : Nibble) : wordXYN op x y n &&& 0xF000#16 = wordXYN op 0x0#4 0x0#4 0x0#4 :=
  (and_wordXYN op x y n 0xF#4 0x0#4 0x0#4 0x0#4).trans (by simp only [nibble_and_ones, nibble_and_zero])

theorem maskOpN_wordXYN (op x y n : Nibble) : wordXYN op x y n &&& 0xF00F#16 = wordXYN op 0x0#4 0x0#4 n :=
  (and_wordXYN op x y n 0xF#4 0x0#4 0x0#4 0xF#4).trans (by simp only [nibble_and_ones, nibble_and_zero])

/-! ## One lemma per constructor -/

theorem cls : Statement (.cls) := rfl
theorem ret : Statement (.ret) := rfl
theorem jp (nnn : Addr) : Statement (.jp nnn) := mask_wordNNN _ _
theorem call (nnn : Addr) : Statement (.call nnn) := mask_wordNNN _ _
theorem seImm (x : Nibble) (nn : Byte) : Statement (.seImm x nn) := maskOp_wordXNN _ _ _
theorem sneImm (x : Nibble) (nn : Byte) : Statement (.sneImm x nn) := maskOp_wordXNN _ _ _
theorem seReg (x y : Nibble) : Statement (.seReg x y) := maskOpN_wordXYN _ _ _ _
theorem ldImm (x : Nibble) (nn : Byte) : Statement (.ldImm x nn) := maskOp_wordXNN _ _ _
theorem addImm (x : Nibble) (nn : Byte) : Statement (.addImm x nn) := maskOp_wordXNN _ _ _
theorem ldReg (x y : Nibble) : Statement (.ldReg x y) := maskOpN_wordXYN _ _ _ _
theorem orReg (x y : Nibble) : Statement (.orReg x y) := maskOpN_wordXYN _ _ _ _
theorem andReg (x y : Nibble) : Statement (.andReg x y) := maskOpN_wordXYN _ _ _ _
theorem xorReg (x y : Nibble) : Statement (.xorReg x y) := maskOpN_wordXYN _ _ _ _
theorem addReg (x y : Nibble) : Statement (.addReg x y) := maskOpN_wordXYN _ _ _ _
theorem subReg (x y : Nibble) : Statement (.subReg x y) := maskOpN_wordXYN _ _ _ _
theorem shr (x y : Nibble) : Statement (.shr x y) := maskOpN_wordXYN _ _ _ _
theorem subnReg (x y : Nibble) : Statement (.subnReg x y) := maskOpN_wordXYN _ _ _ _
theorem shl (x y : Nibble) : Statement (.shl x y) := maskOpN_wordXYN _ _ _ _
theorem sneReg (x y : Nibble) : Statement (.sneReg x y) := maskOpN_wordXYN _ _ _ _
theorem ldI (nnn : Addr) : Statement (.ldI nnn) := mask_wordNNN _ _
theorem jpV0 (nnn : Addr) : Statement (.jpV0 nnn) := mask_wordNNN _ _
theorem rnd (x : Nibble) (nn : Byte) : Statement (.rnd x nn) := maskOp_wordXNN _ _ _
theorem drw (x y n : Nibble) : Statement (.drw x y n) := maskOp_wordXYN _ _ _ _
theorem skp (x : Nibble) : Statement (.skp x) := maskOpNn_wordXNN _ _ _
theorem sknp (x : Nibble) : Statement (.sknp x) := maskOpNn_wordXNN _ _ _
theorem ldVxDt (x : Nibble) : Statement (.ldVxDt x) := maskOpNn_wordXNN _ _ _
theorem ldDtVx (x : Nibble) : Statement (.ldDtVx x) := maskOpNn_wordXNN _ _ _
theorem ldStVx (x : Nibble) : Statement (.ldStVx x) := maskOpNn_wordXNN _ _ _
theorem addI (x : Nibble) : Statement (.addI x) := maskOpNn_wordXNN _ _ _
theorem ldF (x : Nibble) : Statement (.ldF x) := maskOpNn_wordXNN _ _ _
theorem ldB (x : Nibble) : Statement (.ldB x) := maskOpNn_wordXNN _ _ _
theorem stRegs (x : Nibble) : Statement (.stRegs x) := maskOpNn_wordXNN _ _ _
theorem ldRegs (x : Nibble) : Statement (.ldRegs x) := maskOpNn_wordXNN _ _ _

end Sys2Proof.Laws.OpcodeRow
end

