-- ==== Sys2Proof/Tests/Slice0.lean ====
section
/-! SUPPORT. Tests: ill-formed terms refused; every constructor decoded from a word written out from 30_encoding.md; one
step per instruction, with the values of 95_test_vectors.md; and, for every obligation with hypotheses, a state and
operands that meet them. -/

namespace Sys2Proof.Tests

open Sys2Proof Sys2Proof.Machine

/-! ## Helpers -/

/-- Some registers set. -/
def withV (s : State) (rs : List (Nibble × Byte)) : State := rs.foldl (fun t r => t.setV r.1 r.2) s

/-- Some memory cells set. -/
def withMem (s : State) (cs : List Host.Cell) : State := { s with mem := writeCells s.mem cs }

/-- A machine at PC = 0x300 with some registers set. -/
def at300 (rs : List (Nibble × Byte)) : State := withV { State.reset with pc := 0x300#16 } rs

/-- The state after one step on the word w. -/
def run (w : Nat) (s : State) : State :=
  match step (s.withFetchWord 16 w) with
  | .next t => t
  | _ => s

/-- The frame buffer with exactly these (column, row) pixels on. -/
def pixels (ps : List (Nat × Nat)) : BitVec 2048 :=
  ps.foldl (fun f p => f ||| BitVec.twoPow 2048 (64 * p.2 + p.1)) 0#2048

/-- The default parameters with one changed. -/
def withParams (s : State) (p : Params) : State := { s with params := p }

/-! ## Well-formedness: each check refuses an ill-formed term, and accepts a well-formed one -/

/-- An image of 3585 bytes does not fit, one of 3584 does (R353). -/
theorem test_image_too_long : imageFits (List.replicate 3585 0x00#8) = false := by
  rw [imageFits, List.length_replicate]; decide

theorem test_image_longest : imageFits (List.replicate 3584 0x00#8) = true := by
  rw [imageFits, List.length_replicate]; decide

/-- INIT_MEM names no font cell and no cell beyond the memory (R85). -/
theorem test_initMem_font : initMemFits [(0x04F, 0x12#8)] = false := by decide

theorem test_initMem_beyond : initMemFits [(0x050, 0x12#8), (0x1000, 0x12#8)] = false := by decide

theorem test_initMem_edges : initMemFits [(0x050, 0x12#8), (0xFFF, 0x12#8)] = true := by decide

/-- A launch with 79 font bytes, or with an INIT_MEM cell inside the font, is ill formed. -/
theorem test_launch_short_font :
    ({ defaultLaunch with font := fontTable.take 79 } : Launch).wellFormed = false := by decide

theorem test_launch_bad_cell :
    ({ defaultLaunch with initMem := [(0x000, 0x12#8)] } : Launch).wellFormed = false := by decide

/-- A byte list shorter than a word is no instruction (R110). -/
theorem test_truncated : decodeBytes .fault [0x12#8] = .error .truncated := by decide

/-! ## Decoding: a word for every constructor, its nibbles written out from the tables of R112 to R119 -/

theorem test_decode_display :
    decode .fault 0x00E0#16 = .ok .cls ∧ decode .fault 0xD9A3#16 = .ok (.drw 0x9#4 0xA#4 0x3#4) := by decide

theorem test_decode_control :
    decode .fault 0x00EE#16 = .ok .ret ∧ decode .fault 0x1FED#16 = .ok (.jp 0xFED#12) ∧
    decode .fault 0x2345#16 = .ok (.call 0x345#12) ∧ decode .fault 0xB801#16 = .ok (.jpV0 0x801#12) := by decide

theorem test_decode_skips :
    decode .fault 0x3C12#16 = .ok (.seImm 0xC#4 0x12#8) ∧ decode .fault 0x4C81#16 = .ok (.sneImm 0xC#4 0x81#8) ∧
    decode .fault 0x51E0#16 = .ok (.seReg 0x1#4 0xE#4) ∧ decode .fault 0x92D0#16 = .ok (.sneReg 0x2#4 0xD#4) ∧
    decode .fault 0xE79E#16 = .ok (.skp 0x7#4) ∧ decode .fault 0xE7A1#16 = .ok (.sknp 0x7#4) := by decide

theorem test_decode_loads :
    decode .fault 0x6ABC#16 = .ok (.ldImm 0xA#4 0xBC#8) ∧ decode .fault 0x7ABC#16 = .ok (.addImm 0xA#4 0xBC#8) ∧
    decode .fault 0xCABC#16 = .ok (.rnd 0xA#4 0xBC#8) := by decide

theorem test_decode_alu :
    decode .fault 0x8120#16 = .ok (.ldReg 0x1#4 0x2#4) ∧ decode .fault 0x8121#16 = .ok (.orReg 0x1#4 0x2#4) ∧
    decode .fault 0x8122#16 = .ok (.andReg 0x1#4 0x2#4) ∧ decode .fault 0x8123#16 = .ok (.xorReg 0x1#4 0x2#4) ∧
    decode .fault 0x8124#16 = .ok (.addReg 0x1#4 0x2#4) ∧ decode .fault 0x8125#16 = .ok (.subReg 0x1#4 0x2#4) ∧
    decode .fault 0x8126#16 = .ok (.shr 0x1#4 0x2#4) ∧ decode .fault 0x8127#16 = .ok (.subnReg 0x1#4 0x2#4) ∧
    decode .fault 0x812E#16 = .ok (.shl 0x1#4 0x2#4) := by decide

theorem test_decode_index :
    decode .fault 0xA678#16 = .ok (.ldI 0x678#12) ∧ decode .fault 0xF31E#16 = .ok (.addI 0x3#4) ∧
    decode .fault 0xF329#16 = .ok (.ldF 0x3#4) ∧ decode .fault 0xF333#16 = .ok (.ldB 0x3#4) ∧
    decode .fault 0xF355#16 = .ok (.stRegs 0x3#4) ∧ decode .fault 0xF365#16 = .ok (.ldRegs 0x3#4) := by decide

theorem test_decode_timers :
    decode .fault 0xF607#16 = .ok (.ldVxDt 0x6#4) ∧ decode .fault 0xF615#16 = .ok (.ldDtVx 0x6#4) ∧
    decode .fault 0xF618#16 = .ok (.ldStVx 0x6#4) := by decide

/-- Illegal words of the table of R122, the neighbours of legal ones. -/
theorem test_decode_illegal :
    decode .fault 0x00E1#16 = .error .zeroFamily ∧ decode .fault 0x5011#16 = .error .lowNibble ∧
    decode .fault 0x9011#16 = .error .lowNibble ∧ decode .fault 0x8018#16 = .error .aluSubop ∧
    decode .fault 0x801D#16 = .error .aluSubop ∧ decode .fault 0x801F#16 = .error .aluSubop ∧
    decode .fault 0xE09F#16 = .error .keySubop ∧ decode .fault 0xF0FF#16 = .error .miscSubop := by decide

/-- The encoder on one instruction of each format. -/
theorem test_encode_formats :
    encode .cls = 0x00E0#16 ∧ encode (.call 0x345#12) = 0x2345#16 ∧ encode (.seImm 0xC#4 0x12#8) = 0x3C12#16 ∧
    encode (.sneReg 0x2#4 0xD#4) = 0x92D0#16 ∧ encode (.shl 0x1#4 0x2#4) = 0x812E#16 ∧
    encode (.drw 0x9#4 0xA#4 0x3#4) = 0xD9A3#16 ∧ encode (.ldRegs 0x3#4) = 0xF365#16 := by decide

/-- The table's bit numbering: 16 bits, the high byte at the lower address. -/
theorem test_decodeTableWord : decodeTableWord 16 0xD9A3 = some (.drw 0x9#4 0xA#4 0x3#4) := by decide

/-! ## One step per instruction: rows of 95_test_vectors.md, Part 2 -/

/-- 00E0: every cell off (S5). -/
theorem test_cls :
    (run 0x00E0 { at300 [] with fb := pixels [(0, 0), (63, 31), (5, 7)] }).fb = pixels [] ∧
    (run 0x00E0 (at300 [])).pc = 0x302#16 := by decide +kernel

/-- D015 with glyph 0: the 14 pixels of D-DSP's row. -/
theorem test_drw_glyph :
    (run 0xD015 (at300 [(0xF#4, 0x09#8)])).fb =
      pixels [(0, 0), (1, 0), (2, 0), (3, 0), (0, 1), (3, 1), (0, 2), (3, 2), (0, 3), (3, 3),
        (0, 4), (1, 4), (2, 4), (3, 4)] ∧
    (run 0xD015 (at300 [(0xF#4, 0x09#8)])).getV vF = 0#8 := by decide +kernel

/-- D011 with sprite FF at (255, 0): (63, 3) and (0..6, 4); one pixel already on sets VF. -/
theorem test_drw_wraps :
    (run 0xD011 { withMem (at300 [(0x0#4, 255#8)]) [(0x400, 0xFF#8)] with
      i := 0x400#16, fb := pixels [(63, 3)] }).fb =
        pixels [(0, 4), (1, 4), (2, 4), (3, 4), (4, 4), (5, 4), (6, 4)] ∧
    (run 0xD011 { withMem (at300 [(0x0#4, 255#8)]) [(0x400, 0xFF#8)] with
      i := 0x400#16, fb := pixels [(63, 3)] }).getV vF = 1#8 := by decide +kernel

/-- 00EE with the stack [0x20A]; 00EE with an empty stack. -/
theorem test_ret :
    (run 0x00EE { at300 [] with stack := [0x20A#16] }).pc = 0x20A#16 ∧
    (run 0x00EE { at300 [] with stack := [0x20A#16] }).stack = [] ∧
    (run 0x00EE (at300 [])).status =
      { halted := true, cause := .stackUnderflow, faultPc := some 0x300#16, faultWord := some 0x00EE#16,
        faultAddr := none } := by decide

/-- 1FFF, and the fetch that then faults. -/
theorem test_jp :
    (run 0x1FFF (at300 [])).pc = 0xFFF#16 ∧
    (run 0x0000 (run 0x1FFF (at300 []))).status =
      { halted := true, cause := .memBoundFetch, faultPc := some 0xFFF#16, faultWord := none, faultAddr := none } := by
  decide

/-- 2400 at 0xFFE pushes 0x1000. -/
theorem test_call :
    (run 0x2400 { State.reset with pc := 0xFFE#16 }).pc = 0x400#16 ∧
    (run 0x2400 { State.reset with pc := 0xFFE#16 }).stack = [0x1000#16] := by decide

/-- 2210 with 16 entries: STACK_OVERFLOW, nothing pushed, PC at the CALL. -/
theorem test_call_overflow :
    (run 0x2210 { State.reset with pc := 0x208#16, stack := List.replicate 16 0x202#16 }).status =
      { halted := true, cause := .stackOverflow, faultPc := some 0x208#16, faultWord := some 0x2210#16,
        faultAddr := none } ∧
    (run 0x2210 { State.reset with pc := 0x208#16, stack := List.replicate 16 0x202#16 }).stack =
      List.replicate 16 0x202#16 ∧
    (run 0x2210 { State.reset with pc := 0x208#16, stack := List.replicate 16 0x202#16 }).pc = 0x208#16 := by decide

/-- BFFF with V0 = FF: 0x10FE; BA00 uses V0, not VA. -/
theorem test_jpV0 :
    (run 0xBFFF (at300 [(0x0#4, 0xFF#8)])).pc = 0x10FE#16 ∧
    (run 0xBA00 (at300 [(0x0#4, 0x01#8), (0xA#4, 0x99#8)])).pc = 0xA01#16 := by decide

theorem test_seImm :
    (run 0x3305 (at300 [(0x3#4, 0x05#8)])).pc = 0x304#16 ∧ (run 0x3306 (at300 [(0x3#4, 0x05#8)])).pc = 0x302#16 := by
  decide

theorem test_sneImm :
    (run 0x4305 (at300 [(0x3#4, 0x05#8)])).pc = 0x302#16 ∧ (run 0x4306 (at300 [(0x3#4, 0x05#8)])).pc = 0x304#16 := by
  decide

theorem test_seReg :
    (run 0x5120 (at300 [(0x1#4, 0x7F#8), (0x2#4, 0x7F#8)])).pc = 0x304#16 ∧
    (run 0x5120 (at300 [(0x1#4, 0x01#8), (0x2#4, 0x02#8)])).pc = 0x302#16 := by decide

/-- 5011 under LOWNIB_POLICY = ignore executes as 5010; under fault it is a decode error. -/
theorem test_seReg_lowNibble :
    (run 0x5011 (withParams (at300 []) { defaultParams with lownib := .ignore })).pc = 0x304#16 ∧
    (run 0x5011 (at300 [])).status =
      { halted := true, cause := .decodeError, faultPc := some 0x300#16, faultWord := some 0x5011#16,
        faultAddr := none } := by decide

theorem test_sneReg :
    (run 0x9120 (at300 [(0x1#4, 0x01#8), (0x2#4, 0x02#8)])).pc = 0x304#16 ∧
    (run 0x9110 (at300 [(0x1#4, 0x01#8)])).pc = 0x302#16 := by decide

/-- E29E: a taken skip empties the latch, a failed one keeps it. -/
theorem test_skp :
    (run 0xE29E { at300 [(0x2#4, 0x05#8)] with latch := some 0x5#4 }).pc = 0x304#16 ∧
    (run 0xE29E { at300 [(0x2#4, 0x05#8)] with latch := some 0x5#4 }).latch = none ∧
    (run 0xE29E { at300 [(0x2#4, 0x06#8)] with latch := some 0x5#4 }).latch = some 0x5#4 := by decide

/-- E29E with V2 = 15 and key 5: no match under full8, a match under low4. -/
theorem test_skp_keyCompare :
    (run 0xE29E { at300 [(0x2#4, 0x15#8)] with latch := some 0x5#4 }).pc = 0x302#16 ∧
    (run 0xE29E (withParams { at300 [(0x2#4, 0x15#8)] with latch := some 0x5#4 }
      { defaultParams with keyCompare := .low4 })).pc = 0x304#16 := by decide

theorem test_sknp :
    (run 0xE2A1 { at300 [(0x2#4, 0x05#8)] with latch := some 0x5#4 }).pc = 0x302#16 ∧
    (run 0xE2A1 { at300 [(0x2#4, 0x06#8)] with latch := some 0x5#4 }).pc = 0x304#16 ∧
    (run 0xE2A1 { at300 [(0x2#4, 0x06#8)] with latch := some 0x5#4 }).latch = some 0x5#4 ∧
    (run 0xE2A1 (at300 [])).pc = 0x304#16 := by decide

theorem test_ldImm :
    (run 0x6A2F (at300 [])).getV 0xA#4 = 0x2F#8 ∧ (run 0x6A2F (at300 [])).pc = 0x302#16 := by decide

/-- 7203 with V2 = FE; 7F01 with VF = FF writes VF as any register. -/
theorem test_addImm :
    (run 0x7203 (at300 [(0x2#4, 0xFE#8), (0xF#4, 0x55#8)])).getV 0x2#4 = 0x01#8 ∧
    (run 0x7203 (at300 [(0x2#4, 0xFE#8), (0xF#4, 0x55#8)])).getV vF = 0x55#8 := by decide

theorem test_ldReg : (run 0x8010 (at300 [(0x1#4, 0x33#8)])).getV 0x0#4 = 0x33#8 := by decide

theorem test_orReg :
    (run 0x8011 (at300 [(0x0#4, 0xF0#8), (0x1#4, 0x0C#8), (0xF#4, 0x55#8)])).getV 0x0#4 = 0xFC#8 ∧
    (run 0x8011 (at300 [(0x0#4, 0xF0#8), (0x1#4, 0x0C#8), (0xF#4, 0x55#8)])).getV vF = 0x55#8 := by decide

theorem test_andReg : (run 0x8012 (at300 [(0x0#4, 0xF0#8), (0x1#4, 0x3C#8)])).getV 0x0#4 = 0x30#8 := by decide

theorem test_xorReg : (run 0x8013 (at300 [(0x0#4, 0xF0#8), (0x1#4, 0x3C#8)])).getV 0x0#4 = 0xCC#8 := by decide

/-- 8014, FF + 01; and 80F4 with the flag as the source. -/
theorem test_addReg :
    (run 0x8014 (at300 [(0x0#4, 0xFF#8), (0x1#4, 0x01#8)])).getV 0x0#4 = 0x00#8 ∧
    (run 0x8014 (at300 [(0x0#4, 0xFF#8), (0x1#4, 0x01#8)])).getV vF = 1#8 ∧
    (run 0x80F4 (at300 [(0x0#4, 0xFF#8), (0xF#4, 0x01#8)])).getV 0x0#4 = 0x00#8 ∧
    (run 0x80F4 (at300 [(0x0#4, 0xFF#8), (0xF#4, 0x01#8)])).getV vF = 1#8 := by decide

/-- 8F14 with VF = FF, V1 = 01 in both orders of writing. -/
theorem test_addReg_flag :
    (run 0x8F14 (at300 [(0xF#4, 0xFF#8), (0x1#4, 0x01#8)])).getV vF = 0x01#8 ∧
    (run 0x8F14 (withParams (at300 [(0xF#4, 0xFF#8), (0x1#4, 0x01#8)])
      { defaultParams with aluOrder := .flagFirst })).getV vF = 0x00#8 := by decide

/-- 8015: 01 - 02, and 03 - 03. -/
theorem test_subReg :
    (run 0x8015 (at300 [(0x0#4, 0x01#8), (0x1#4, 0x02#8)])).getV 0x0#4 = 0xFF#8 ∧
    (run 0x8015 (at300 [(0x0#4, 0x01#8), (0x1#4, 0x02#8)])).getV vF = 0#8 ∧
    (run 0x8015 (at300 [(0x0#4, 0x03#8), (0x1#4, 0x03#8)])).getV vF = 1#8 := by decide

/-- 8F15 with VF = FF, V1 = 01 in both orders of writing. -/
theorem test_subReg_flag :
    (run 0x8F15 (at300 [(0xF#4, 0xFF#8), (0x1#4, 0x01#8)])).getV vF = 0x01#8 ∧
    (run 0x8F15 (withParams (at300 [(0xF#4, 0xFF#8), (0x1#4, 0x01#8)])
      { defaultParams with aluOrder := .flagFirst })).getV vF = 0xFE#8 := by decide

/-- 8017: 05 - 03 reversed, and FF, 00. -/
theorem test_subnReg :
    (run 0x8017 (at300 [(0x0#4, 0x03#8), (0x1#4, 0x05#8)])).getV 0x0#4 = 0x02#8 ∧
    (run 0x8017 (at300 [(0x0#4, 0x03#8), (0x1#4, 0x05#8)])).getV vF = 1#8 ∧
    (run 0x8017 (at300 [(0x0#4, 0xFF#8), (0x1#4, 0x00#8)])).getV 0x0#4 = 0x01#8 ∧
    (run 0x8017 (at300 [(0x0#4, 0xFF#8), (0x1#4, 0x00#8)])).getV vF = 0#8 := by decide

/-- 8016 on FF, y ignored. -/
theorem test_shr :
    (run 0x8016 (at300 [(0x0#4, 0xFF#8), (0x1#4, 0x40#8)])).getV 0x0#4 = 0x7F#8 ∧
    (run 0x8016 (at300 [(0x0#4, 0xFF#8), (0x1#4, 0x40#8)])).getV vF = 1#8 := by decide

/-- 8F06 with VF = 81 in both orders of writing. -/
theorem test_shr_flag :
    (run 0x8F06 (at300 [(0xF#4, 0x81#8)])).getV vF = 0x00#8 ∧
    (run 0x8F06 (withParams (at300 [(0xF#4, 0x81#8)])
      { defaultParams with shiftOrder := .flagLast })).getV vF = 0x01#8 := by decide

/-- 801E on FF, y ignored. -/
theorem test_shl :
    (run 0x801E (at300 [(0x0#4, 0xFF#8), (0x1#4, 0x40#8)])).getV 0x0#4 = 0xFE#8 ∧
    (run 0x801E (at300 [(0x0#4, 0xFF#8), (0x1#4, 0x40#8)])).getV vF = 1#8 := by decide

/-- 8F0E with VF = 81 in both orders of writing. -/
theorem test_shl_flag :
    (run 0x8F0E (at300 [(0xF#4, 0x81#8)])).getV vF = 0x02#8 ∧
    (run 0x8F0E (withParams (at300 [(0xF#4, 0x81#8)])
      { defaultParams with shiftOrder := .flagLast })).getV vF = 0x01#8 := by decide

theorem test_ldI : (run 0xA300 (at300 [])).i = 0x300#16 := by decide

/-- F11E: I = FFFF wraps, I = 0FFF does not stop at 12 bits, VF is kept. -/
theorem test_addI :
    (run 0xF11E { at300 [(0x1#4, 0x01#8)] with i := 0xFFFF#16 }).i = 0x0000#16 ∧
    (run 0xF11E { at300 [(0x1#4, 0x01#8)] with i := 0x0FFF#16 }).i = 0x1000#16 ∧
    (run 0xF11E { at300 [(0x1#4, 0x01#8)] with i := 0xFFFF#16 }).getV vF = 0#8 := by decide

theorem test_ldF :
    (run 0xFA29 (at300 [(0xA#4, 0x0A#8)])).i = 0x032#16 ∧ (run 0xF029 (at300 [(0x0#4, 0xFF#8)])).i = 0x4FB#16 := by
  decide

/-- Cxnn with nn = 00, whatever byte is drawn. -/
theorem test_rnd (x : Nibble) (s : State) :
    ∃ t, exec (.rnd x 0x00#8) s = .next t ∧ t.getV x = 0#8 ∧ t.draws = s.draws + 1 := by
  refine ⟨_, rfl, ?_, rfl⟩
  simp [State.getV, State.setV]

/-- FC33 with VC = 7B. -/
theorem test_ldB :
    (run 0xFC33 { at300 [(0xC#4, 0x7B#8)] with i := 0x400#16 }).mem =
      [(0x300, 0xFC#8), (0x301, 0x33#8), (0x400, 1#8), (0x401, 2#8), (0x402, 3#8)] := by decide

/-- FC33 with VC = FF at I = FFE: two digits, then MEM_BOUND_DATA at 0x1000. -/
theorem test_ldB_bound :
    (run 0xFC33 { at300 [(0xC#4, 0xFF#8)] with i := 0xFFE#16 }).memRead 0xFFE = some 2#8 ∧
    (run 0xFC33 { at300 [(0xC#4, 0xFF#8)] with i := 0xFFE#16 }).memRead 0xFFF = some 5#8 ∧
    (run 0xFC33 { at300 [(0xC#4, 0xFF#8)] with i := 0xFFE#16 }).status =
      { halted := true, cause := .memBoundData, faultPc := some 0x300#16, faultWord := some 0xFC33#16,
        faultAddr := some 0x1000#17 } := by decide

/-- F155: V0 and V1 stored, I kept. -/
theorem test_stRegs :
    (run 0xF155 { at300 [(0x0#4, 0x11#8), (0x1#4, 0x22#8), (0x2#4, 0x33#8)] with i := 0x400#16 }).mem =
      [(0x300, 0xF1#8), (0x301, 0x55#8), (0x400, 0x11#8), (0x401, 0x22#8)] ∧
    (run 0xF155 { at300 [(0x0#4, 0x11#8), (0x1#4, 0x22#8), (0x2#4, 0x33#8)] with i := 0x400#16 }).i = 0x400#16 := by
  decide

/-- F265 from 01 02 03, V3 kept. -/
theorem test_ldRegs :
    (run 0xF265 { withMem (at300 [(0x3#4, 0x44#8)]) [(0x400, 1#8), (0x401, 2#8), (0x402, 3#8), (0x403, 9#8)] with
      i := 0x400#16 }).v = (withV State.reset [(0x0#4, 1#8), (0x1#4, 2#8), (0x2#4, 3#8), (0x3#4, 0x44#8)]).v := by
  decide

/-- F065 at I = FFFF: MEM_BOUND_DATA, FAULT_ADDR = 0xFFFF, nothing loaded. -/
theorem test_ldRegs_bound :
    (run 0xF065 { at300 [(0x0#4, 0x44#8)] with i := 0xFFFF#16 }).getV 0x0#4 = 0x44#8 ∧
    (run 0xF065 { at300 [(0x0#4, 0x44#8)] with i := 0xFFFF#16 }).status =
      { halted := true, cause := .memBoundData, faultPc := some 0x300#16, faultWord := some 0xF065#16,
        faultAddr := some 0xFFFF#17 } := by decide

theorem test_ldVxDt : (run 0xF507 { at300 [] with dt := 0x3C#8 }).getV 0x5#4 = 0x3C#8 := by decide

theorem test_ldDtVx : (run 0xF315 (at300 [(0x3#4, 0x05#8)])).dt = 0x05#8 := by decide

theorem test_ldStVx : (run 0xF318 (at300 [(0x3#4, 0x03#8)])).st = 0x03#8 := by decide

/-- The tick after the tenth step (D-TMR): DT = 1, ST = 2, and DT = 0 saturates. -/
theorem test_tick :
    (run 0x6000 { at300 [] with dt := 1#8, st := 2#8, k := 9 }).dt = 0#8 ∧
    (run 0x6000 { at300 [] with dt := 1#8, st := 2#8, k := 9 }).st = 1#8 ∧
    (run 0x6000 { at300 [] with dt := 0#8, st := 0xFF#8, k := 9 }).dt = 0#8 ∧
    (run 0x6000 { at300 [] with dt := 0#8, st := 0xFF#8, k := 8 }).st = 0xFF#8 := by decide

/-- No tick after a fault, even in the tenth step, and the batch position is kept. -/
theorem test_fault_no_tick :
    (run 0x00EE { at300 [] with dt := 5#8, k := 9 }).dt = 5#8 ∧ (run 0x00EE { at300 [] with k := 9 }).k = 9 := by decide

/-- An odd PC is fetched from (D-ENG). -/
theorem test_fetch_odd :
    (run 0x602A { State.reset with pc := 0x201#16 }).getV 0x0#4 = 0x2A#8 ∧
    (run 0x602A { State.reset with pc := 0x201#16 }).pc = 0x203#16 := by decide

/-- The first step from reset with nothing loaded: 0000 is no instruction (D-ENG). -/
theorem test_reset_empty :
    step State.reset = .next { State.reset with
      phase := .running
      status := { halted := true, cause := .decodeError, faultPc := some 0x200#16, faultWord := some 0x0000#16,
                  faultAddr := none } } := rfl

/-- DF11 with VF = 05: pixel (5, 0) latched, pixel (0, 0) live (D-DSP). -/
theorem test_drw_coordRead :
    (run 0xDF11 { withMem (at300 [(0xF#4, 0x05#8)]) [(0x400, 0x80#8)] with i := 0x400#16 }).fb = pixels [(5, 0)] ∧
    (run 0xDF11 (withParams { withMem (at300 [(0xF#4, 0x05#8)]) [(0x400, 0x80#8)] with i := 0x400#16 }
      { defaultParams with coordRead := .live })).fb = pixels [(0, 0)] := by decide +kernel

/-- DF11 live, sprite FF, V1 = 00, pixel (0, 0) on: the first bit meets it and sets VF, so the other seven are drawn from
column 1 (by hand from R164 and R165). -/
theorem test_drw_live_collision :
    (run 0xDF11 (withParams { withMem (at300 [(0xF#4, 0x05#8)]) [(0x400, 0xFF#8)] with
      i := 0x400#16, fb := pixels [(0, 0)] } { defaultParams with coordRead := .live })).fb =
        pixels [(2, 0), (3, 0), (4, 0), (5, 0), (6, 0), (7, 0), (8, 0)] := by decide +kernel

/-- D010 with I = FFFF reads nothing, draws nothing and clears VF (D-DSP's row n = 0). -/
theorem test_drw_no_row :
    (run 0xD010 { at300 [(0xF#4, 0x05#8)] with i := 0xFFFF#16 }).getV vF = 0#8 ∧
    (run 0xD010 { at300 [(0xF#4, 0x05#8)] with i := 0xFFFF#16 }).status = Status.clear := by decide

/-- D012 at I = FFF: row 0 drawn, then MEM_BOUND_DATA at 0x1000, VF = 0 (D-DSP). -/
theorem test_drw_bound :
    (run 0xD012 { withMem (at300 []) [(0xFFF, 0xC0#8)] with i := 0xFFF#16 }).fb = pixels [(0, 0), (1, 0)] ∧
    (run 0xD012 { withMem (at300 []) [(0xFFF, 0xC0#8)] with i := 0xFFF#16 }).status =
      { halted := true, cause := .memBoundData, faultPc := some 0x300#16, faultWord := some 0xD012#16,
        faultAddr := some 0x1000#17 } := by decide +kernel

/-! ## The host -/

/-- A loaded image stands at 0x200, and a second load is refused. -/
theorem test_load :
    ∃ t, load [0x12#8, 0x00#8] State.reset = .next t ∧ t.memRead 0x200 = some 0x12#8 ∧
      load [] t = .refused .loadNotAllowed := ⟨_, rfl, by decide, rfl⟩

/-- A key pressed between cycles is latched; within a cycle the host may not press. -/
theorem test_press :
    press 0x7#4 State.reset = .next { State.reset with latch := some 0x7#4 } ∧
    press 0x7#4 { State.reset with k := 3 } = .refused .cycleRunning := ⟨rfl, rfl⟩

/-- The host's reads answer between cycles, after a fault too, and are refused within a cycle (R330, R334). -/
theorem test_reads :
    readPixel 63#6 31#5 { State.reset with fb := BitVec.twoPow 2048 2047 } = .ok true ∧
    readSt { State.reset with st := 7#8 } = .ok 7#8 ∧
    readStatus State.reset.raiseFetch = .ok State.reset.raiseFetch.status ∧
    readFb { State.reset with k := 3 } = .error .cycleRunning ∧
    hostStep .readSt { State.reset with k := 3 } = .refused .cycleRunning :=
  ⟨by decide +kernel, rfl, rfl, rfl, rfl⟩

/-! ## Witnesses: for every obligation with hypotheses, a state and operands that meet them -/

/-- The word w stands at PC, which reads its two bytes. -/
def atWord (s : State) (w : Nat) : State := s.withFetchWord 16 w

theorem witness_DecodeInvertsEncode : (Instr.drw 0xF#4 0x0#4 0xF#4).wellFormed = true := rfl

theorem witness_EncodeInvertsDecode : decode .fault 0x9AF0#16 = .ok (.sneReg 0xA#4 0xF#4) := by decide

theorem witness_LowNibblePolicy : (0x1#4 : Nibble) ≠ 0#4 ∧ (0xF#4 : Nibble) ≠ 0#4 := by decide

/-- The last PC a fetch reads from, and the first it does not. -/
theorem witness_FetchIsBigEndian : ({ State.reset with pc := 0xFFE#16 } : State).pc.toNat ≤ 0xFFE := by decide

theorem witness_FetchBoundFault :
    ({ State.reset with pc := 0xFFF#16 } : State).status.halted = false ∧
    0xFFE < ({ State.reset with pc := 0xFFF#16 } : State).pc.toNat := by decide

/-- AboutToRun at the last PC, for a word with both low bits of its fields set. -/
theorem witness_aboutToRun :
    (atWord { State.reset with pc := 0xFFE#16 } 0xF315).AboutToRun (.ldDtVx 0x3#4) :=
  ⟨0xF3#8, 0x15#8, by decide, by decide, by decide⟩

theorem witness_StepRunsDecodedInstruction :
    ∃ t, (atWord State.reset 0x1ABC).status.halted = false ∧ (atWord State.reset 0x1ABC).AboutToRun (.jp 0xABC#12) ∧
      exec (.jp 0xABC#12) { atWord State.reset 0x1ABC with moved := false, phase := .running } = .next t ∧
      t.status.halted = false ∧ t.moved = true :=
  ⟨_, by decide, ⟨0x1A#8, 0xBC#8, by decide, by decide, by decide⟩, rfl, by decide, by decide⟩

theorem witness_HaltedMachineStaysAsItIs : (State.reset.raiseFetch).status.halted = true := rfl

theorem witness_DecodeFault :
    (atWord State.reset 0x8128).status.halted = false ∧ (atWord State.reset 0x8128).fetchWord = some 0x8128#16 ∧
    decode (atWord State.reset 0x8128).params.lownib 0x8128#16 = .error .aluSubop := by decide

/-- A taken skip, and a RET that faults, meet the hypotheses of PcAfterStep. -/
theorem witness_PcAfterStep :
    ((atWord State.reset 0x3000).status.halted = false ∧ (atWord State.reset 0x3000).AboutToRun (.seImm 0x0#4 0x00#8) ∧
      skipTaken (.seImm 0x0#4 0x00#8) (atWord State.reset 0x3000) = true) ∧
    (atWord State.reset 0x00EE).status.halted = false ∧ (atWord State.reset 0x00EE).AboutToRun .ret :=
  ⟨⟨by decide, ⟨0x30#8, 0x00#8, by decide, by decide, by decide⟩, by decide⟩, by decide,
    ⟨0x00#8, 0xEE#8, by decide, by decide, by decide⟩⟩

theorem witness_PcWritersSetMoved :
    ∃ t, State.reset.status.halted = false ∧ State.reset.moved = false ∧
      exec (.call 0x345#12) State.reset = .next t ∧ t.moved = true :=
  ⟨_, rfl, rfl, rfl, by decide⟩

/-- The tenth step with Fx15, and the ninth; and a tenth that faults. -/
theorem witness_TickEndsTheTenthStep :
    (∀ k, k = 8 ∨ k = 9 → (atWord { State.reset with k := k } 0xF315).status.halted = false ∧
      (atWord { State.reset with k := k } 0xF315).k < 10 ∧
      (atWord { State.reset with k := k } 0xF315).AboutToRun (.ldDtVx 0x3#4)) ∧
    (atWord { State.reset with k := 9 } 0x00EE).status.halted = false ∧
    (atWord { State.reset with k := 9 } 0x00EE).AboutToRun .ret := by
  refine ⟨?_, by decide, ⟨0x00#8, 0xEE#8, by decide, by decide, by decide⟩⟩
  rintro k (rfl | rfl) <;> exact ⟨by decide, by decide, ⟨0xF3#8, 0x15#8, by decide, by decide, by decide⟩⟩

/-- A cycle of ten jumps to itself does not fault. -/
theorem witness_CycleIsTenStepsThenTick :
    State.reset.status.halted = false ∧ State.reset.k = 0 ∧
    (match cycle (atWord State.reset 0x1200) with | .next t => !t.status.halted | _ => false) = true := by
  refine ⟨rfl, rfl, ?_⟩
  decide +kernel

/-- A launch with its own font, and cells of INIT_MEM at both ends of what it may name. -/
def someLaunch : Launch :=
  { defaultLaunch with
    font := List.replicate 80 0x3C#8, initMem := [(0x050, 0x12#8), (0xFFF, 0x34#8)], initI := 0x123#16 }

theorem witness_ConstructionValues :
    someLaunch.wellFormed = true ∧ (0xFFF, 0x34#8) ∈ someLaunch.initMem ∧
    (∀ c, (0xFFF, c) ∈ someLaunch.initMem → c = 0x34#8) ∧ (∀ c, (0x051, c) ∉ someLaunch.initMem) ∧
    (construct someLaunch).memRead 0xFFF = some 0x34#8 ∧ (construct someLaunch).memRead 0x04F = some 0x3C#8 :=
  ⟨by decide, by simp [someLaunch], by simp [someLaunch], by simp [someLaunch], by decide +kernel, by decide +kernel⟩

theorem witness_LoadCopiesTheImage :
    State.reset.phase = .constructed ∧ ([0x12#8, 0x00#8] : List Byte).length ≤ 3584 ∧
    3584 < (List.replicate 3585 0x00#8).length ∧
    ({ State.reset with phase := .running } : State).phase ≠ .constructed :=
  ⟨rfl, by decide, by rw [List.length_replicate]; decide, by decide⟩

theorem witness_HostWritesTheLatchBetweenCycles :
    (State.reset.status.halted = true ∨ State.reset.k = 0) ∧
    (({ State.reset with k := 9 } : State).status.halted = false ∧ ({ State.reset with k := 9 } : State).k ≠ 0) := by
  decide

/-- Invariants hold in the middle of a batch with a full stack, and the step answers. -/
theorem witness_StepKeepsInv :
    (atWord { State.reset with k := 9, stack := List.replicate 16 0x202#16 } 0x2210).Inv ∧
    ∃ t, step (atWord { State.reset with k := 9, stack := List.replicate 16 0x202#16 } 0x2210) = .next t :=
  ⟨by decide, _, rfl⟩

theorem witness_StepKeepsPcBound :
    (atWord { State.reset with pc := 0xFFE#16, stack := [0x1000#16] } 0x00EE).PcBound ∧
    (run 0x00EE { State.reset with pc := 0xFFE#16, stack := [0x1000#16] }).pc = 0x1000#16 := by
  refine ⟨⟨by decide, ?_⟩, by decide⟩
  intro a ha
  obtain rfl : a = 0x1000#16 := List.mem_singleton.1 ha
  exact Nat.le_refl _

theorem witness_HostActionKeepsInv :
    State.reset.Inv ∧ ∃ t, hostStep (.load [0x12#8, 0x00#8]) State.reset = .next t ∧ t.memRead 0x200 = some 0x12#8 :=
  ⟨by decide, _, rfl, by decide⟩

theorem witness_ParametersAndDraws :
    ∃ t, exec (.rnd 0x3#4 0x0F#8) State.reset = .next t ∧ t.draws = State.reset.draws + 1 := ⟨_, rfl, rfl⟩

/-- No row with I at its largest; the last I for a 5-row sprite; VF named under the latched reading; neither named under the live one; and a set bit
that falls on a cell. -/
theorem witness_DrawTogglesTheSprite :
    ((0x0#4 : Nibble) = 0#4 ∧ ({ State.reset with i := 0xFFFF#16 } : State).i.toNat = 0xFFFF) ∧
    ({ State.reset with i := 0xFFB#16 } : State).i.toNat + (0x5#4 : Nibble).toNat ≤ 0x1000 ∧
    State.reset.params.coordRead = .latched ∧ ((0x0#4 : Nibble) ≠ vF ∧ (0x1#4 : Nibble) ≠ vF) ∧
    SpriteHits State.reset 0 0 5 64 ∧ State.reset.fbRead 64 = false ∧
    SpriteHits { State.reset with fb := pixels [(0, 0)] } 0 0 1 0 ∧
    ({ State.reset with fb := pixels [(0, 0)] } : State).fbRead 0 = true :=
  ⟨by decide, by decide, by decide, by decide, ⟨1, 0, by decide, by decide, by decide, by decide⟩, by decide +kernel,
    ⟨0, 0, by decide, by decide, by decide, by decide⟩, by decide +kernel⟩

/-- Live reading, x = F, over an empty frame buffer. -/
theorem witness_LiveDrawReadsClearedFlag (j : Nat) :
    (withParams State.reset { defaultParams with coordRead := .live }).i.toNat + (0x5#4 : Nibble).toNat ≤ 0x1000 ∧
    (withParams State.reset { defaultParams with coordRead := .live }).params.coordRead = .live ∧
    (withParams State.reset { defaultParams with coordRead := .live }).fbRead j = false := by
  refine ⟨by decide, rfl, ?_⟩
  simp [State.fbRead, withParams, State.reset, defaultLaunch]

/-- Live reading, x = F, row FF, pixel (1, 0) on: bit number 1 is the first that meets a cell that is on. -/
def liveHit : State :=
  withParams { withMem State.reset [(0x400, 0xFF#8)] with i := 0x400#16, fb := 2#2048 }
    { defaultParams with coordRead := .live }

theorem witness_LiveDrawReadsClearedFlag_collision :
    liveHit.i.toNat + (0x1#4 : Nibble).toNat ≤ 0x1000 ∧ liveHit.params.coordRead = .live ∧
    0 < (0x1#4 : Nibble).toNat ∧ 1 < 8 ∧ (liveHit.mem.read (liveHit.i.toNat + 0)).getLsbD (7 - 1) = true ∧
    liveHit.fbRead ((64 * (liveCoord liveHit 0x0#4 0 + 0) + (liveCoord liveHit vF 0 + 1)) % 2048) = true ∧
    ∀ j, SpriteHitsBetween liveHit (liveCoord liveHit vF 0) (liveCoord liveHit 0x0#4 0) (0x1#4 : Nibble).toNat 0
      (8 * 0 + 1) j → liveHit.fbRead j = false := by
  refine ⟨by decide, rfl, by decide, by decide, by decide, by decide +kernel, ?_⟩
  rintro j ⟨row, col, _, _, _, h, _, rfl⟩
  obtain ⟨rfl, rfl⟩ : row = 0 ∧ col = 0 := by omega
  decide +kernel

/-- The first row outside at offset 1, and at offset 0 with I above the memory. -/
theorem witness_DrawFaultKeepsRowsDrawn :
    (0x1000 < ({ State.reset with i := 0xFFF#16 } : State).i.toNat + (0x2#4 : Nibble).toNat ∧ 0 < (0x2#4 : Nibble).toNat) ∧
    (0x1000 < ({ State.reset with i := 0xFFFF#16 } : State).i.toNat + (0x1#4 : Nibble).toNat ∧
      0 < (0x1#4 : Nibble).toNat) := by decide

theorem witness_DrawTwiceRestores :
    ((0x0#4 : Nibble) = 0#4 ∨ ({ State.reset with i := 0xFFFF#16 } : State).i.toNat + (0x0#4 : Nibble).toNat ≤ 0x1000) ∧
    State.reset.i.toNat + (0xF#4 : Nibble).toNat ≤ 0x1000 ∧ (0xE#4 : Nibble) ≠ vF ∧ (0x0#4 : Nibble) ≠ vF := by decide

theorem witness_RetPopsOrUnderflows :
    ({ State.reset with stack := [0x202#16, 0x300#16] } : State).stack = 0x202#16 :: [0x300#16] ∧
    State.reset.stack = [] := ⟨rfl, rfl⟩

theorem witness_CallPushesOrOverflows :
    ({ State.reset with stack := List.replicate 15 0x202#16 } : State).stack.length < 16 ∧
    16 ≤ ({ State.reset with stack := List.replicate 16 0x202#16 } : State).stack.length ∧
    16 ≤ ({ State.reset with stack := List.replicate 17 0x202#16 } : State).stack.length := by decide

/-- CALL 400 at 0x300 (S7), and at 0xFFD, the last PC of the range. -/
def callAt (pc : Word) : State :=
  withMem (atWord { State.reset with pc := pc } 0x2400) [(0x400, 0x00#8), (0x401, 0xEE#8)]

theorem witness_CallThenReturn :
    ∀ pc : Word, pc = 0x300#16 ∨ pc = 0xFFD#16 →
      (callAt pc).status.halted = false ∧ 0x200 ≤ (callAt pc).pc.toNat ∧ (callAt pc).pc.toNat ≤ 0xFFD ∧
      (callAt pc).stack.length < 16 ∧ (callAt pc).fetchWord = some (0x2#4 ++ 0x400#12) ∧
      ({ callAt pc with pc := (0x400#12 : Addr).setWidth 16 } : State).fetchWord = some 0x00EE#16 := by
  rintro pc (rfl | rfl) <;> decide

/-- The conditions of the skips hold in one state and fail in another. -/
theorem witness_skips :
    State.reset.getV 0x0#4 = 0x00#8 ∧ State.reset.getV 0x0#4 ≠ 0x01#8 ∧
    State.reset.getV 0x0#4 = State.reset.getV 0x1#4 ∧
    (at300 [(0x1#4, 0x02#8)]).getV 0x0#4 ≠ (at300 [(0x1#4, 0x02#8)]).getV 0x1#4 ∧
    keyMatch .full8 (some 0xF#4) 0x0F#8 = true ∧ keyMatch .full8 (some 0xF#4) 0xFF#8 = false ∧
    keyMatch .low4 (some 0xF#4) 0xFF#8 = true := by decide

theorem witness_ShiftsMoveTheBitToTheFlag : (0xE#4 : Nibble) ≠ vF := by decide

/-- The last byte in range and the first beyond, for Fx33, Fx55 and Fx65 at I = 0xFFE. -/
theorem witness_memory_bounds :
    (1 < 3 ∧ ({ State.reset with i := 0xFFE#16 } : State).i.toNat + 1 ≤ 0xFFF ∧
      0xFFF < ({ State.reset with i := 0xFFE#16 } : State).i.toNat + 2) ∧
    ((0xF#4 : Nibble).toNat ≤ (0xF#4 : Nibble).toNat ∧ (0x2#4 : Nibble).toNat < (0x3#4 : Nibble).toNat) := by decide

/-- WriteThenReadOrFetch at the last byte a fetch reads first, the last byte it reads second, and the first address beyond. -/
theorem witness_WriteThenReadOrFetch :
    (0xFFE#16 : Word).toNat = 0xFFE ∧ 0xFFE ≤ 0xFFE ∧ (0xFFE#16 : Word).toNat + 1 = 0xFFF ∧ (∃ t, State.reset.memWrite 0xFFF 0x12#8 = some t) ∧
    0xFFF < 0x1000 ∧ State.reset.memWrite 0x1000 0x12#8 = none := ⟨rfl, by decide, rfl, ⟨_, rfl⟩, by decide, rfl⟩

theorem witness_RegisterWritersTable :
    ∃ t, exec (.ldRegs 0x3#4) State.reset = .next t ∧ mayWriteV (.ldRegs 0x3#4) 0x4#4 = false ∧
      mayWriteV (.ldRegs 0x3#4) 0x3#4 = true := ⟨_, rfl, by decide, by decide⟩

theorem witness_MemoryWriters :
    ∃ t, exec (.ldRegs 0x3#4) State.reset = .next t ∧
      ∀ x, Instr.ldRegs 0x3#4 ≠ .ldB x ∧ Instr.ldRegs 0x3#4 ≠ .stRegs x :=
  ⟨_, rfl, fun _ => ⟨by simp, by simp⟩⟩

/-- An instruction that changes I, one that changes FB, one the latch, one DT, one ST. -/
theorem witness_SpecialStateWriters :
    (∃ t, exec (.ldI 0x300#12) State.reset = .next t ∧ t.i ≠ State.reset.i) ∧
    (∃ t, exec .cls { State.reset with fb := 1#2048 } = .next t ∧ t.fb ≠ 1#2048) ∧
    (∃ t, exec (.skp 0x0#4) { State.reset with latch := some 0x0#4 } = .next t ∧ t.latch ≠ some 0x0#4) ∧
    (∃ t, exec (.ldDtVx 0x1#4) (at300 [(0x1#4, 0x05#8)]) = .next t ∧ t.dt ≠ (at300 [(0x1#4, 0x05#8)]).dt) ∧
    (∃ t, exec (.ldStVx 0x1#4) (at300 [(0x1#4, 0x05#8)]) = .next t ∧ t.st ≠ (at300 [(0x1#4, 0x05#8)]).st) :=
  ⟨⟨_, rfl, by decide⟩, ⟨_, rfl, by decide +kernel⟩, ⟨_, rfl, by decide⟩, ⟨_, rfl, by decide⟩, ⟨_, rfl, by decide⟩⟩

theorem witness_StackReachedOnlyByCallAndReturn :
    (∃ t, exec (.jp 0x300#12) State.reset = .next t ∧ (∀ n, Instr.jp 0x300#12 ≠ .call n) ∧ Instr.jp 0x300#12 ≠ .ret) ∧
    (∃ t, exec (.call 0x300#12) State.reset = .next t ∧ t.status.halted = false) ∧
    (∃ t, exec .ret { State.reset with stack := [0x202#16] } = .next t ∧ t.status.halted = false) :=
  ⟨⟨_, rfl, fun _ => by simp, by simp⟩, ⟨_, rfl, rfl⟩, ⟨_, rfl, rfl⟩⟩

theorem witness_BatchPositionAndSoundTimerUnread : ∀ x, Instr.ldDtVx 0x1#4 ≠ .ldStVx x := fun _ => by simp

/-- A fault of each instruction that raises one of its own. -/
theorem witness_FaultEntryRecord :
    ∃ s : State, s.status.halted = false ∧
      ∀ i, i = Instr.ret ∨ i = .drw 0x0#4 0x1#4 0x2#4 ∨ i = .ldB 0x2#4 ∨ i = .stRegs 0x1#4 ∨ i = .ldRegs 0x1#4 →
        ∃ t, exec i s = .next t ∧ t.status.halted = true := by
  refine ⟨{ State.reset with i := 0xFFF#16 }, rfl, ?_⟩
  rintro i (rfl | rfl | rfl | rfl | rfl) <;> exact ⟨_, rfl, by decide⟩

theorem witness_FaultEntryRecord_call :
    ∃ t, exec (.call 0x300#12) { State.reset with stack := List.replicate 16 0x202#16 } = .next t ∧
      t.status.halted = true := ⟨_, rfl, by decide⟩

end Sys2Proof.Tests
end

/-! # What execute leaves alone: the parameters, the load phase, the batch position and the oracle's counter -/

namespace Sys2Proof.Machine

/-- t agrees with s on the fields that belong to the machine's surroundings and not to an instruction: the parameters
(log 4), the load phase (log 18), the batch position (R58) and the number of bytes RAND has given (log 11). -/
structure SameBookkeeping (s t : State) : Prop where
  params : t.params = s.params
  phase : t.phase = s.phase
  k : t.k = s.k
  draws : t.draws = s.draws

/-! ## Shared operations -/

/-- Taking a fault writes STATUS alone (R313). -/
theorem SameBookkeeping.raiseBound {s t : State} (h : SameBookkeeping s t) (word : Word) (a : Nat) :
    SameBookkeeping s (t.raiseBound word a) := ⟨h.params, h.phase, h.k, h.draws⟩

theorem DrawRel.sameBookkeeping {s t : State} (h : DrawRel s t) : SameBookkeeping s t := by
  rw [h.1]
  exact ⟨rfl, rfl, rfl, rfl⟩

theorem sameBookkeeping_writeResult (s : State) (o : WriteOrder) (x : Nibble) (r : Byte) (f : Bool) :
    SameBookkeeping s (s.writeResult o x r f) := by
  rw [writeResult_frame]
  exact ⟨rfl, rfl, rfl, rfl⟩

theorem sameBookkeeping_writeShift (s : State) (o : WriteOrder) (x : Nibble) (out : Byte → Bool) (sh : Byte → Byte) :
    SameBookkeeping s (s.writeShift o x out sh) := by
  rw [writeShift_frame]
  exact ⟨rfl, rfl, rfl, rfl⟩

theorem sameBookkeeping_skipIf (s : State) (c : Bool) : SameBookkeeping s (s.skipIf c) := by
  cases c <;> exact ⟨rfl, rfl, rfl, rfl⟩

/-! ## Instructions that branch or loop -/

theorem execRet_sameBookkeeping {s t : State} (h : execRet s = .next t) : SameBookkeeping s t := by
  unfold execRet at h
  split at h <;> cases h <;> exact ⟨rfl, rfl, rfl, rfl⟩

theorem execCall_sameBookkeeping {nnn : Addr} {s t : State} (h : execCall nnn s = .next t) : SameBookkeeping s t := by
  unfold execCall at h
  split at h <;> cases h <;> exact ⟨rfl, rfl, rfl, rfl⟩

theorem execSkp_sameBookkeeping {x : Nibble} {s t : State} (h : execSkp x s = .next t) : SameBookkeeping s t := by
  unfold execSkp at h
  split at h <;> cases h <;> exact ⟨rfl, rfl, rfl, rfl⟩

theorem execDrw_sameBookkeeping {x y n : Nibble} {s t : State} (h : execDrw x y n s = .next t) :
    SameBookkeeping s t := by
  obtain ⟨u, hu, rfl | rfl⟩ := execDrw_shape h
  · exact hu.sameBookkeeping
  · exact hu.sameBookkeeping.raiseBound _ _

theorem execLdRegs_sameBookkeeping {x : Nibble} {s t : State} (h : execLdRegs x s = .next t) :
    SameBookkeeping s t := by
  rw [(execLdRegs_shape h).1]
  exact ⟨rfl, rfl, rfl, rfl⟩

/-! ## Every instruction -/

/-- Cxnn is the one instruction that draws, and it draws once (R233). -/
theorem exec_sameBookkeeping {i : Instr} {s t : State} (h : exec i s = .next t) (hrnd : ∀ x nn, i ≠ .rnd x nn) :
    SameBookkeeping s t := by
  cases i with
  | rnd x nn => exact absurd rfl (hrnd x nn)
  | ret => exact execRet_sameBookkeeping h
  | call => exact execCall_sameBookkeeping h
  | skp => exact execSkp_sameBookkeeping h
  | drw => exact execDrw_sameBookkeeping h
  | ldRegs => exact execLdRegs_sameBookkeeping h
  | ldB x =>
    cases (execLdB_eq x s).symm.trans h
    exact ⟨rfl, rfl, rfl, rfl⟩
  | stRegs x =>
    cases (execStRegs_eq x s).symm.trans h
    exact ⟨rfl, rfl, rfl, rfl⟩
  | addReg | subReg | subnReg => cases h; exact sameBookkeeping_writeResult ..
  | shr | shl => cases h; exact sameBookkeeping_writeShift ..
  | seImm | sneImm | seReg | sneReg | sknp => cases h; exact sameBookkeeping_skipIf ..
  | cls | jp | jpV0 | ldImm | addImm | ldReg | orReg | andReg | xorReg | ldI | addI | ldF | ldVxDt | ldDtVx | ldStVx =>
    cases h
    exact ⟨rfl, rfl, rfl, rfl⟩

/-- Settles O25: Cxnn by its one draw, every other instruction by what it leaves alone. -/
theorem parametersAndDraws : Obligations.ParametersAndDraws := by
  intro s t i h
  cases i with
  | rnd x nn =>
    cases h
    simp
  | _ =>
    obtain ⟨hparams, hphase, hk, hdraws⟩ := exec_sameBookkeeping h (by simp)
    exact ⟨hparams, hphase, hk, hdraws⟩

end Sys2Proof.Machine

/-! # What execute can do, said once by kind of instruction -/

namespace Sys2Proof.Machine

/-- The register file v differs from that of s only where the table of R33 lets i write. -/
def KeepsOtherRegisters (s : State) (i : Instr) (v : Vector Byte 16) : Prop :=
  ∀ j, mayWriteV i j = false → ({ s with v := v } : State).getV j = s.getV j

/-- STATUS after the data accesses of i at I: as before, or the record of a MemoryBound (R87, R310). -/
def KeptOrBound (s : State) (i : Instr) (q : Status) : Prop :=
  q = s.status ∨ q = boundStatus s.pc s.i (encode i)

/-- What execute of an instruction can leave of s, one constructor per kind of effect. -/
inductive Effect (s : State) : Instr → State → Prop where
  /-- The loads, arithmetic, Cxnn and Fx07; and a skip that is not taken, which keeps every register. -/
  | registers {i : Instr} (v : Vector Byte 16) (d : Nat) (stays : assignsPc i s = false)
      (kept : KeepsOtherRegisters s i v) : Effect s i { s with v := v, draws := d }
  | index {i : Instr} (w : Word) (hi : (∃ n, i = .ldI n) ∨ (∃ x, i = .addI x) ∨ ∃ x, i = .ldF x) :
      Effect s i (s.setI w)
  | clear : Effect s .cls s.fbClear
  | draw {x y n : Nibble} (v : Vector Byte 16) (fb : BitVec 2048) (q : Status)
      (kept : KeepsOtherRegisters s (.drw x y n) v) (hq : KeptOrBound s (.drw x y n) q) :
      Effect s (.drw x y n) { s with v := v, fb := fb, status := q }
  | store {i : Instr} (m : Memory) (q : Status) (hi : (∃ x, i = .ldB x) ∨ ∃ x, i = .stRegs x)
      (hm : s.mem.wf = true → m.wf = true) (hq : KeptOrBound s i q) : Effect s i { s with mem := m, status := q }
  | load {x : Nibble} (v : Vector Byte 16) (q : Status) (kept : KeepsOtherRegisters s (.ldRegs x) v)
      (hq : KeptOrBound s (.ldRegs x) q) : Effect s (.ldRegs x) { s with v := v, status := q }
  | delayTimer {x : Nibble} (b : Byte) : Effect s (.ldDtVx x) (s.setDt b)
  | soundTimer {x : Nibble} (b : Byte) : Effect s (.ldStVx x) (s.setSt b)
  | jump {i : Instr} (w : Word) (hi : (∃ n, i = .jp n) ∨ ∃ n, i = .jpV0 n) (hw : w.toNat = pcAfter i s) :
      Effect s i (s.jump w)
  | skip {i : Instr} (taken : skipTaken i s = true) : Effect s i (s.jump (s.pc + 4#16))
  | skipKey {x : Nibble} (taken : skipTaken (.skp x) s = true) :
      Effect s (.skp x) ((s.jump (s.pc + 4#16)).setLatch none)
  | call {n : Addr} (room : s.stack.length < Config.stackDepth) :
      Effect s (.call n) ((s.setStack ((s.pc + 2#16) :: s.stack)).jump (addr16 n))
  | callFault {n : Addr} : Effect s (.call n) (s.raise .stackOverflow (some (encode (.call n))) none)
  | ret (a : Word) (rest : List Word) (top : s.stack = a :: rest) : Effect s .ret ((s.setStack rest).jump a)
  | retFault : Effect s .ret (s.raise .stackUnderflow (some (encode .ret)) none)

/-! ## The instructions that branch or loop -/

/-- 2nnn pushes and jumps, or overflows (R183). -/
theorem execCall_cases {n : Addr} {s t : State} (h : execCall n s = .next t) :
    (s.stack.length < Config.stackDepth ∧ t = (s.setStack ((s.pc + 2#16) :: s.stack)).jump (addr16 n)) ∨
    t = s.raise .stackOverflow (some (encode (.call n))) none := by
  unfold execCall at h
  split at h <;> cases h
  · exact .inr rfl
  · exact .inl ⟨by omega, rfl⟩

/-- 00EE pops into PC, or underflows (R181). -/
theorem execRet_cases {s t : State} (h : execRet s = .next t) :
    (∃ a rest, s.stack = a :: rest ∧ t = (s.setStack rest).jump a) ∨
    t = s.raise .stackUnderflow (some (encode .ret)) none := by
  unfold execRet at h
  split at h <;> cases h
  · exact .inr rfl
  · exact .inl ⟨_, _, ‹_›, rfl⟩

theorem effect_skipIf {i : Instr} {s : State} (c : Bool) (hpc : assignsPc i s = skipTaken i s)
    (hc : skipTaken i s = c) : Effect s i (s.skipIf c) := by
  cases c with
  | true => exact .skip hc
  | false => exact .registers s.v s.draws (hpc.trans hc) fun _ _ => rfl

theorem execSkp_effect {x : Nibble} {s t : State} (h : execSkp x s = .next t) : Effect s (.skp x) t := by
  unfold execSkp at h
  split at h <;> cases h
  · exact .skipKey ‹_›
  · exact .registers s.v s.draws (Bool.eq_false_iff.2 ‹_›) fun _ _ => rfl

theorem boundAfter_keptOrBound (s : State) (i : Instr) (n : Nat) :
    KeptOrBound s i (boundAfter s (encode i) n) := by
  unfold boundAfter
  split
  · exact .inl rfl
  · exact .inr rfl

theorem execDrw_effect {x y n : Nibble} {s t : State} (h : execDrw x y n s = .next t) :
    Effect s (.drw x y n) t := by
  obtain ⟨u, ⟨hu, hv⟩, ht⟩ := execDrw_shape h
  have kept : KeepsOtherRegisters s (.drw x y n) u.v := fun j hj => hv j (by simpa [mayWriteV] using hj)
  obtain rfl | rfl := ht
  · rw [hu]
    exact .draw _ _ _ kept (.inl rfl)
  · rw [hu]
    exact .draw _ _ _ kept (.inr rfl)

theorem execLdRegs_effect {x : Nibble} {s t : State} (h : execLdRegs x s = .next t) :
    Effect s (.ldRegs x) t := by
  obtain ⟨ht, hv⟩ := execLdRegs_shape h
  have kept : KeepsOtherRegisters s (.ldRegs x) t.v := by
    intro j hj
    have hx : x.toNat < j.toNat := by simpa [mayWriteV] using hj
    have hr : inRange s (x.toNat + 1) ≤ x.toNat + 1 := by unfold inRange; split <;> omega
    exact (hv j).trans (if_neg (by omega))
  rw [ht]
  exact .load _ _ kept (boundAfter_keptOrBound ..)

/-- The part of a block that lies in the memory, written at I, keeps the canonical form. -/
theorem writeBlock_inRange_wf (s : State) (n : Nat) (val : Nat → Byte) (h : s.mem.wf = true) :
    (s.mem.writeBlock s.i.toNat ((List.range' 0 (inRange s n)).map val)).wf = true := by
  by_cases hi : s.i.toNat ≤ 0x1000
  · refine Memory.writeBlock_wf _ _ _ ?_ h
    simp only [List.length_map, List.length_range', inRange, Config.memSize]
    split <;> omega
  · have hr : inRange s n = 0 := by unfold inRange; split <;> omega
    rw [hr]
    exact h

/-! ## Register writes -/

/-- A write of V[x] by an instruction that may write V[x]. -/
theorem keepsOtherRegisters_setV {s : State} {i : Instr} {x : Nibble} (b : Byte) (hx : mayWriteV i x = true) :
    KeepsOtherRegisters s i (s.setV x b).v :=
  fun j hj => getV_setV_ne s b fun e => by simp [e, hx] at hj

/-- A result to V[x] and a flag to VF, in either order (R221). -/
theorem keepsOtherRegisters_writeResult {s : State} {i : Instr} {x : Nibble} (o : WriteOrder) (r : Byte) (f : Bool)
    (hx : mayWriteV i x = true) (hf : mayWriteV i vF = true) :
    KeepsOtherRegisters s i (s.writeResult o x r f).v := by
  intro j hj
  have hjx : j ≠ x := fun e => by simp [e, hx] at hj
  have hjf : j ≠ vF := fun e => by simp [e, hf] at hj
  refine (getV_writeResult s o x r f j).trans ?_
  cases o <;> simp [resultV, hjx, hjf]

/-- A shift of V[x], in either order (R221). -/
theorem keepsOtherRegisters_writeShift {s : State} {i : Instr} {x : Nibble} (o : WriteOrder) (out : Byte → Bool)
    (sh : Byte → Byte) (hx : mayWriteV i x = true) (hf : mayWriteV i vF = true) :
    KeepsOtherRegisters s i (s.writeShift o x out sh).v := by
  intro j hj
  have hjx : j ≠ x := fun e => by simp [e, hx] at hj
  have hjf : j ≠ vF := fun e => by simp [e, hf] at hj
  change (s.writeShift o x out sh).getV j = s.getV j
  cases o <;> simp [State.writeShift, getV_setV, hjx, hjf]

/-! ## Every instruction -/

theorem addr16_toNat (n : Addr) : (addr16 n).toNat = n.toNat := by
  simp [addr16]; omega

/-- nnn + V0 never wraps at 16 bits (R40, D6). -/
theorem indexedTarget_toNat (n : Addr) (s : State) :
    (indexedTarget n s).toNat = n.toNat + (s.getV 0x0#4).toNat := by
  have hn := n.isLt
  have hv := (s.getV 0x0#4).isLt
  rw [indexedTarget, BitVec.toNat_add, addr16_toNat, BitVec.toNat_setWidth]
  omega

/-- The one inversion of execute. -/
theorem exec_effect {i : Instr} {s t : State} (h : exec i s = .next t) : Effect s i t := by
  cases i with
  | ret =>
    obtain ⟨a, rest, hs, rfl⟩ | rfl := execRet_cases h
    · exact .ret a rest hs
    · exact .retFault
  | call n =>
    obtain ⟨hs, rfl⟩ | rfl := execCall_cases h
    · exact .call hs
    · exact .callFault
  | skp x => exact execSkp_effect h
  | drw x y n => exact execDrw_effect h
  | ldRegs x => exact execLdRegs_effect h
  | ldB x =>
    cases (execLdB_eq x s).symm.trans h
    exact .store _ _ (.inl ⟨x, rfl⟩) (writeBlock_inRange_wf s _ _) (boundAfter_keptOrBound ..)
  | stRegs x =>
    cases (execStRegs_eq x s).symm.trans h
    exact .store _ _ (.inr ⟨x, rfl⟩) (writeBlock_inRange_wf s _ _) (boundAfter_keptOrBound ..)
  | seImm | sneImm | seReg | sneReg | sknp => cases h; exact effect_skipIf _ rfl rfl
  | addReg | subReg | subnReg =>
    cases h
    rw [writeResult_frame]
    exact .registers _ _ rfl (keepsOtherRegisters_writeResult _ _ _ (by simp [mayWriteV]) (by simp [mayWriteV]))
  | shr | shl =>
    cases h
    rw [writeShift_frame]
    exact .registers _ _ rfl (keepsOtherRegisters_writeShift _ _ _ (by simp [mayWriteV]) (by simp [mayWriteV]))
  | ldImm | addImm | ldReg | orReg | andReg | xorReg | rnd | ldVxDt =>
    cases h
    exact .registers _ _ rfl (keepsOtherRegisters_setV _ (by simp [mayWriteV]))
  | cls => cases h; exact .clear
  | jp n => cases h; exact .jump _ (.inl ⟨n, rfl⟩) (addr16_toNat n)
  | jpV0 n => cases h; exact .jump _ (.inr ⟨n, rfl⟩) (indexedTarget_toNat n s)
  | ldI n => cases h; exact .index _ (.inl ⟨n, rfl⟩)
  | addI x => cases h; exact .index _ (.inr (.inl ⟨x, rfl⟩))
  | ldF x => cases h; exact .index _ (.inr (.inr ⟨x, rfl⟩))
  | ldDtVx => cases h; exact .delayTimer _
  | ldStVx => cases h; exact .soundTimer _

/-! ## What the effects keep -/

theorem boundStatus_wf (pc i word : Word) : (boundStatus pc i word).wf = true := by
  have hi := i.isLt
  simp [boundStatus, Status.wf]
  omega

theorem KeptOrBound.wf {s : State} {i : Instr} {q : Status} (hq : KeptOrBound s i q) (h : s.status.wf = true) :
    q.wf = true := by
  obtain rfl | rfl := hq
  · exact h
  · exact boundStatus_wf ..

/-- Each fault records a coherent STATUS (R310). -/
theorem Effect.status_wf {i : Instr} {s t : State} (e : Effect s i t) (h : s.status.wf = true) :
    t.status.wf = true := by
  cases e with
  | draw _ _ _ _ hq | store _ _ _ _ hq | load _ _ _ hq => exact hq.wf h
  | callFault | retFault => rfl
  | _ => exact h

/-- Only Fx33 and Fx55 write memory, inside it (R81). -/
theorem Effect.mem_wf {i : Instr} {s t : State} (e : Effect s i t) (h : s.mem.wf = true) : t.mem.wf = true := by
  cases e with
  | store m q hi hm hq => exact hm h
  | _ => exact h

/-- The call stack after an instruction: as before, or with PC + 2 pushed below the limit, or popped (R44). -/
theorem Effect.stack_cases {i : Instr} {s t : State} (e : Effect s i t) :
    t.stack = s.stack ∨
    ((∃ n, i = .call n) ∧ s.stack.length < Config.stackDepth ∧ t.stack = (s.pc + 2#16) :: s.stack) ∨
    (i = .ret ∧ ∃ a, s.stack = a :: t.stack) := by
  cases e with
  | call room => exact .inr (.inl ⟨⟨_, rfl⟩, room, rfl⟩)
  | ret a rest top => exact .inr (.inr ⟨rfl, a, top⟩)
  | _ => exact .inl rfl

theorem Effect.stack_length_le {i : Instr} {s t : State} (e : Effect s i t)
    (h : s.stack.length ≤ Config.stackDepth) : t.stack.length ≤ Config.stackDepth := by
  obtain hs | ⟨-, room, hs⟩ | ⟨-, a, hs⟩ := e.stack_cases
  · rwa [hs]
  · rw [hs]
    exact room
  · rw [hs] at h
    exact Nat.le_of_succ_le h

theorem assignsPc_of_skipTaken {i : Instr} {s : State} (h : skipTaken i s = true) : assignsPc i s = true := by
  cases i with
  | ret | jp | call | jpV0 => rfl
  | _ => exact h

/-- An instruction that does not assign PC keeps it, and moved with it (R144). -/
theorem Effect.pc_kept {i : Instr} {s t : State} (e : Effect s i t) (h : assignsPc i s = false) :
    t.pc = s.pc ∧ t.moved = s.moved := by
  cases e with
  | jump w hi hw => obtain ⟨n, rfl⟩ | ⟨n, rfl⟩ := hi <;> cases h
  | skip taken | skipKey taken => cases (assignsPc_of_skipTaken taken).symm.trans h
  | call | ret => cases h
  | _ => exact ⟨rfl, rfl⟩

theorem pcAfter_of_not_assignsPc {i : Instr} {s : State} (h : assignsPc i s = false) :
    pcAfter i s = s.pc.toNat + 2 := by
  have hskip : ¬skipTaken i s = true := fun taken => by simp [assignsPc_of_skipTaken taken] at h
  cases i with
  | ret | jp | call | jpV0 => cases h
  | _ => exact (if_neg hskip : (if skipTaken _ s then s.pc.toNat + 4 else s.pc.toNat + 2) = _)

theorem pcAfter_of_skipTaken {i : Instr} {s : State} (h : skipTaken i s = true) :
    pcAfter i s = s.pc.toNat + 4 := by
  cases i with
  | ret | jp | call | jpV0 => cases h
  | _ => exact if_pos h

/-- PC + 4 does not wrap where a fetch can read (R40). -/
theorem skipTarget_toNat {i : Instr} {s : State} (taken : skipTaken i s = true) (hpc : s.pc.toNat ≤ 0xFFE) :
    (s.pc + 4#16).toNat = pcAfter i s := by
  rw [pcAfter_of_skipTaken taken, BitVec.toNat_add]
  exact Nat.mod_eq_of_lt (by simp; omega)

/-- An instruction that assigns PC faults and keeps it, or moves it to its target (R39, R144). -/
theorem Effect.pc_assigned {i : Instr} {s t : State} (e : Effect s i t) (h : assignsPc i s = true)
    (hpc : s.pc.toNat ≤ 0xFFE) :
    (t.status.halted = true ∧ t.pc = s.pc ∧ t.moved = s.moved) ∨
    (t.status = s.status ∧ t.pc.toNat = pcAfter i s ∧ t.moved = true) := by
  cases e with
  | jump w hi hw => exact .inr ⟨rfl, hw, rfl⟩
  | skip taken | skipKey taken => exact .inr ⟨rfl, skipTarget_toNat taken hpc, rfl⟩
  | call => exact .inr ⟨rfl, addr16_toNat _, rfl⟩
  | ret a rest top => exact .inr ⟨rfl, congrArg (fun l => (l.headD 0x0000#16).toNat) top.symm, rfl⟩
  | callFault | retFault => exact .inl ⟨rfl, rfl, rfl⟩
  | registers v d stays kept => cases stays.symm.trans h
  | index w hi => obtain ⟨n, rfl⟩ | ⟨x, rfl⟩ | ⟨x, rfl⟩ := hi <;> cases h
  | store m q hi hm hq => obtain ⟨x, rfl⟩ | ⟨x, rfl⟩ := hi <;> cases h
  | clear | draw | load | delayTimer | soundTimer => cases h

/-! ## After execute: the advance and the batch -/

theorem advance_frame (s : State) : s.advance = { s with pc := s.advance.pc } := by
  unfold State.advance
  split <;> rfl

@[simp] theorem advance_stack (s : State) : s.advance.stack = s.stack := by rw [advance_frame]
@[simp] theorem advance_mem (s : State) : s.advance.mem = s.mem := by rw [advance_frame]
@[simp] theorem advance_status (s : State) : s.advance.status = s.status := by rw [advance_frame]
@[simp] theorem advance_k (s : State) : s.advance.k = s.k := by rw [advance_frame]

theorem countStep_frame (s : State) :
    s.countStep = { s with k := s.countStep.k, dt := s.countStep.dt, st := s.countStep.st } := by
  unfold State.countStep
  split
  · rfl
  · split <;> rfl

@[simp] theorem countStep_pc (s : State) : s.countStep.pc = s.pc := by rw [countStep_frame]
@[simp] theorem countStep_stack (s : State) : s.countStep.stack = s.stack := by rw [countStep_frame]
@[simp] theorem countStep_mem (s : State) : s.countStep.mem = s.mem := by rw [countStep_frame]
@[simp] theorem countStep_status (s : State) : s.countStep.status = s.status := by rw [countStep_frame]

/-- A step that is counted stays below ten, or ends the cycle at 0 (R58, R148). -/
theorem countStep_k_lt {s : State} (h : s.k < Config.instrPerCycle) : s.countStep.k < Config.instrPerCycle := by
  unfold State.countStep
  split
  · exact h
  · split
    · exact Nat.succ_pos 9
    · exact Nat.lt_of_not_le ‹_›

theorem advance_pc_of_moved {s : State} (h : s.moved = true) : s.advance.pc = s.pc := by
  simp [State.advance, h]

theorem advance_pc_of_halted {s : State} (h : s.status.halted = true) : s.advance.pc = s.pc := by
  simp [State.advance, h]

/-- PC + 2 does not wrap where a fetch can read (R40). -/
theorem advance_pc_toNat {s : State} (hh : s.status.halted = false) (hm : s.moved = false)
    (hpc : s.pc.toNat ≤ 0xFFE) : s.advance.pc.toNat = s.pc.toNat + 2 := by
  simp only [State.advance, hh, hm, Bool.or_self, Bool.false_eq_true, if_false, BitVec.toNat_add]
  exact Nat.mod_eq_of_lt (by simp; omega)

/-- PC after execute and advance: kept by a fault, else what the instruction makes it (R39, R145). -/
theorem Effect.advance_pc {i : Instr} {s t : State} (e : Effect s i t) (hh : s.status.halted = false)
    (hm : s.moved = false) (hpc : s.pc.toNat ≤ 0xFFE) :
    t.advance.pc.toNat = if t.status.halted then s.pc.toNat else pcAfter i s := by
  cases ha : assignsPc i s with
  | true =>
    obtain ⟨hf, hp, -⟩ | ⟨hs, hp, hmoved⟩ := e.pc_assigned ha hpc
    · rw [advance_pc_of_halted hf, hp, if_pos hf]
    · rw [advance_pc_of_moved hmoved, hp, hs, hh]
      rfl
  | false =>
    obtain ⟨hp, hmoved⟩ := e.pc_kept ha
    cases hf : t.status.halted with
    | true => rw [advance_pc_of_halted hf, hp, if_pos rfl]
    | false =>
      rw [advance_pc_toNat hf (hmoved.trans hm) (hp ▸ hpc), hp, pcAfter_of_not_assignsPc ha]
      rfl

/-! ## The invariants -/

theorem raiseFetch_status_wf {s : State} (h : 0xFFE < s.pc.toNat) : s.raiseFetch.status.wf = true := by
  simpa [State.raiseFetch, Status.wf] using h

/-- Settles O22: a fault writes a coherent STATUS, execute keeps each part of the invariant, and the batch is counted
below ten. -/
theorem stepKeepsInv : Obligations.StepKeepsInv := by
  rintro s t ⟨hmem, hstack, hk, hstatus⟩ h
  obtain ⟨-, rfl⟩ | ⟨-, hpc, rfl⟩ | ⟨-, -, w, -, -, -, rfl⟩ | ⟨-, -, -, i, u, -, -, hu, rfl⟩ := step_cases h
  · exact ⟨hmem, hstack, hk, hstatus⟩
  · exact ⟨hmem, hstack, hk, raiseFetch_status_wf hpc⟩
  · exact ⟨hmem, hstack, hk, rfl⟩
  · have e : Effect s.beginStep i u := exec_effect hu
    obtain ⟨-, -, huk, -⟩ := parametersAndDraws _ _ _ hu
    refine ⟨?_, ?_, countStep_k_lt ?_, ?_⟩
    · simpa using e.mem_wf hmem
    · simpa using e.stack_length_le hstack
    · rw [advance_k, huk]
      exact hk
    · simpa using e.status_wf hstatus

/-- No target lies above 0x10FE: a 12-bit field, with V0 added, a return address, or PC + 4 (R40). -/
theorem pcAfter_le {i : Instr} {s : State} (hpc : s.pc.toNat ≤ 0xFFE) (hstack : ∀ a ∈ s.stack, a.toNat ≤ 0x1000) :
    pcAfter i s ≤ 0x10FE := by
  by_cases taken : skipTaken i s = true
  · rw [pcAfter_of_skipTaken taken]
    omega
  cases ha : assignsPc i s with
  | false =>
    rw [pcAfter_of_not_assignsPc ha]
    omega
  | true =>
    cases i with
    | jp n | call n =>
      change n.toNat ≤ 0x10FE
      omega
    | jpV0 n =>
      change n.toNat + (s.getV 0x0#4).toNat ≤ 0x10FE
      omega
    | ret =>
      change (s.stack.headD 0x0000#16).toNat ≤ 0x10FE
      cases hs : s.stack with
      | nil => decide
      | cons a rest => exact (hstack a (by simp [hs])).trans (by decide)
    | _ => exact absurd ha taken

/-- A pushed PC + 2 is at most 0x1000 where a fetch can read (R183). -/
theorem Effect.returnAddress_le {i : Instr} {s t : State} (e : Effect s i t) (hpc : s.pc.toNat ≤ 0xFFE)
    (hstack : ∀ a ∈ s.stack, a.toNat ≤ 0x1000) : ∀ a ∈ t.stack, a.toNat ≤ 0x1000 := by
  obtain hs | ⟨-, -, hs⟩ | ⟨-, b, hs⟩ := e.stack_cases
  · rwa [hs]
  · rw [hs, List.forall_mem_cons]
    refine ⟨?_, hstack⟩
    rw [BitVec.toNat_add]
    exact (Nat.mod_le _ _).trans (by simp; omega)
  · rw [hs, List.forall_mem_cons] at hstack
    exact hstack.2

/-- Settles O23: a fault keeps PC and the stack, and a step that runs has its PC where a fetch can read. -/
theorem stepKeepsPcBound : Obligations.StepKeepsPcBound := by
  rintro s t ⟨hpc, hstack⟩ h
  obtain ⟨-, rfl⟩ | ⟨-, -, rfl⟩ | ⟨-, -, w, -, -, -, rfl⟩ | ⟨hh, hfetch, -, i, u, -, -, hu, rfl⟩ := step_cases h
  · exact ⟨hpc, hstack⟩
  · exact ⟨hpc, hstack⟩
  · exact ⟨hpc, hstack⟩
  · have e : Effect s.beginStep i u := exec_effect hu
    refine ⟨?_, by simpa using e.returnAddress_le hfetch hstack⟩
    rw [countStep_pc, e.advance_pc hh rfl hfetch]
    split
    · exact hpc
    · exact pcAfter_le hfetch hstack

/-- Settles O12: what execute and the advance make of PC, which the count in the batch leaves. -/
theorem pcAfterStep : Obligations.PcAfterStep := by
  intro s i hh hrun
  obtain ⟨hpc, w, hw, hd⟩ := aboutToRun_fetch hrun
  obtain ⟨u, hu⟩ := exec_next i s.beginStep
  refine ⟨_, step_run hh hw hd hu, ?_⟩
  rw [countStep_pc, countStep_status, advance_status, (exec_effect hu).advance_pc hh rfl hpc]
  rfl

/-- Settles O21: the values of reset, evaluated. -/
theorem resetMeetsInvariants : Obligations.ResetMeetsInvariants :=
  ⟨by decide, by decide, List.forall_mem_nil _⟩

/-! ## Who writes what -/

/-- Settles O55: each kind of effect keeps the registers that the table does not give the instruction. -/
theorem registerWritersTable : Obligations.RegisterWritersTable := by
  intro s t i j h hj
  cases exec_effect h with
  | registers v d stays kept => exact kept j hj
  | draw v fb q kept hq => exact kept j hj
  | load v q kept hq => exact kept j hj
  | _ => rfl

/-- Settles O57: a kind of effect that changes one of the five fields belongs to the instructions named for it. -/
theorem specialStateWriters : Obligations.SpecialStateWriters := by
  intro s t i h
  cases exec_effect h with
  | index w hi => exact ⟨fun _ => hi, absurd rfl, absurd rfl, absurd rfl, absurd rfl⟩
  | clear => exact ⟨absurd rfl, fun _ => .inl rfl, absurd rfl, absurd rfl, absurd rfl⟩
  | draw => exact ⟨absurd rfl, fun _ => .inr ⟨_, _, _, rfl⟩, absurd rfl, absurd rfl, absurd rfl⟩
  | skipKey => exact ⟨absurd rfl, absurd rfl, fun _ => ⟨⟨_, rfl⟩, rfl⟩, absurd rfl, absurd rfl⟩
  | delayTimer => exact ⟨absurd rfl, absurd rfl, absurd rfl, fun _ => ⟨_, rfl⟩, absurd rfl⟩
  | soundTimer => exact ⟨absurd rfl, absurd rfl, absurd rfl, absurd rfl, fun _ => ⟨_, rfl⟩⟩
  | _ => exact ⟨absurd rfl, absurd rfl, absurd rfl, absurd rfl, absurd rfl⟩

/-! ## What is not read -/

/-- Replacing the stack is seen by 2nnn and 00EE alone. -/
theorem unseen_stack (l : List Word) : Unseen fun s => { s with stack := l } := by
  constructor <;> intros <;> rfl

/-- Settles O58: the stack is an unseen field of every instruction but 2nnn and 00EE, whose two outcomes are
`execCall_cases` and `execRet_cases`. -/
theorem stackReachedOnlyByCallAndReturn : Obligations.StackReachedOnlyByCallAndReturn := by
  refine ⟨fun s l i hcall hret => ⟨?_, fun t h => ?_⟩, fun s t n h hh => ?_, fun s t h hh => ?_⟩
  · cases i with
    | ldStVx x => rfl
    | _ => exact (unseen_stack l).exec _ s (by simp) hcall hret
  · obtain hs | ⟨⟨n, hi⟩, -⟩ | ⟨hi, -⟩ := (exec_effect h).stack_cases
    · exact hs
    · exact absurd hi (hcall n)
    · exact absurd hi hret
  · obtain ⟨-, rfl⟩ | rfl := execCall_cases h
    · exact ⟨_, rfl⟩
    · cases hh
  · obtain ⟨a, rest, hs, rfl⟩ | rfl := execRet_cases h
    · exact hs
    · cases hh

/-- An unseen update that leaves the stack's operations alone too: only Fx18 may see it. -/
structure UnseenWithStack (g : State → State) : Prop extends Unseen g where
  stack : ∀ s, (g s).stack = s.stack
  setStack : ∀ s l, (g s).setStack l = g (s.setStack l)

theorem UnseenWithStack.execCall {g : State → State} (h : UnseenWithStack g) (n : Addr) (s : State) :
    execCall n (g s) = mapNext g (execCall n s) := by
  unfold Machine.execCall
  rw [h.stack, h.pc, h.setStack, h.jump, h.raise]
  split <;> rfl

theorem UnseenWithStack.execRet {g : State → State} (h : UnseenWithStack g) (s : State) :
    execRet (g s) = mapNext g (execRet s) := by
  unfold Machine.execRet
  rw [h.stack]
  split
  · rw [h.raise]
    rfl
  · rw [h.setStack, h.jump]
    rfl

/-- An update that is unseen, the stack's operations included, commutes with every instruction but Fx18. -/
theorem UnseenWithStack.exec {g : State → State} (h : UnseenWithStack g) (i : Instr) (s : State)
    (hst : ∀ x, i ≠ .ldStVx x) : exec i (g s) = mapNext g (exec i s) := by
  cases i with
  | call n => exact h.execCall n s
  | ret => exact h.execRet s
  | _ => exact h.toUnseen.exec _ s hst (by simp) (by simp)

theorem unseen_batchPosition (n : Nat) : UnseenWithStack fun s => { s with k := n } :=
  ⟨by constructor <;> intros <;> rfl, fun _ => rfl, fun _ _ => rfl⟩

theorem unseen_soundTimer (b : Byte) : UnseenWithStack fun s => { s with st := b } :=
  ⟨by constructor <;> intros <;> rfl, fun _ => rfl, fun _ _ => rfl⟩

/-- Settles O59: the batch position and ST are unseen by every instruction but Fx18, which writes ST from V[x] alone. -/
theorem batchPositionAndSoundTimerUnread : Obligations.BatchPositionAndSoundTimerUnread := by
  intro s n b i
  refine ⟨?_, fun hst => (unseen_soundTimer b).exec i s hst, fun _ => rfl⟩
  cases i with
  | ldStVx x => rfl
  | _ => exact (unseen_batchPosition n).exec _ s (by simp)

end Sys2Proof.Machine

/-! # Memory: a write as a read and a fetch see it, and who writes -/

namespace Sys2Proof.Machine

/-- After MemWrite the written cell reads as the byte, every other address as before (R87). -/
theorem memRead_of_memWrite {s t : State} {a : Nat} {b : Byte} (h : s.memWrite a b = some t) (c : Nat) :
    t.memRead c = if c = a then some b else s.memRead c := by
  by_cases ha : a ≤ 0xFFF
  · cases (State.memWrite_eq s a b ha).symm.trans h
    by_cases hc : c = a
    · simp [State.memRead, Memory.read_write, hc, ha]
    · simp [State.memRead, Memory.read_write, hc]
  · cases (State.memWrite_none s a b (by omega)).symm.trans h

/-- A fetch in range: what PC reads as is the high byte of the word, what PC + 1 reads as the low byte (R142). -/
theorem fetchWord_bytes {s : State} (h : s.pc.toNat ≤ 0xFFE) :
    ∃ v, s.fetchWord = some v ∧ (∀ b, s.memRead s.pc.toNat = some b → v.toNat / 256 = b.toNat) ∧
      ∀ b, s.memRead (s.pc.toNat + 1) = some b → v.toNat % 256 = b.toNat := by
  cases hv : s.fetchWord with
  | none =>
    have hpc := fetchWord_eq_none.1 hv
    omega
  | some v =>
    obtain ⟨hi, lo, hhi, hlo, rfl⟩ := fetchWord_eq_some.1 hv
    have hlt := lo.isLt
    refine ⟨_, rfl, fun b hb => ?_, fun b hb => ?_⟩
    · cases hhi.symm.trans hb
      rw [joinBytes_toNat]
      omega
    · cases hlo.symm.trans hb
      rw [joinBytes_toNat]
      omega

/-- Settles O53: the fetch reads the two cells through the same memory as MemRead, and one of them is the cell
written. -/
theorem writeThenReadOrFetch : Obligations.WriteThenReadOrFetch := by
  intro s a b
  refine ⟨fun ha => ?_, fun ha => ⟨State.memWrite_none s a b ha, State.memRead_none s a ha⟩⟩
  have hw := State.memWrite_eq s a b ha
  have hself := (memRead_of_memWrite hw a).trans (if_pos rfl)
  refine ⟨_, hw, rfl, memRead_of_memWrite hw, fun w hpc hfetch => ?_, fun w hpc => ?_⟩
  · subst hpc
    obtain ⟨v, hv, hhigh, -⟩ := fetchWord_bytes (s := { s with mem := s.mem.write w.toNat b, pc := w }) hfetch
    exact ⟨v, hv, hhigh b hself⟩
  · subst hpc
    obtain ⟨v, hv, -, hlow⟩ := fetchWord_bytes (s := { s with mem := s.mem.write (w.toNat + 1) b, pc := w })
      (Nat.le_of_succ_le_succ ha)
    exact ⟨v, hv, hlow b hself⟩

/-- The memory is replaced by Fx33 and Fx55 alone (R81). -/
theorem Effect.mem_kept {i : Instr} {s t : State} (e : Effect s i t) (h : ∀ x, i ≠ .ldB x ∧ i ≠ .stRegs x) :
    t.mem = s.mem := by
  cases e with
  | store m q hi hm hq =>
    obtain ⟨x, hx⟩ | ⟨x, hx⟩ := hi
    · exact absurd hx (h x).1
    · exact absurd hx (h x).2
  | _ => rfl

/-- Settles O56: the one kind of effect that replaces the memory is that of Fx33 and Fx55. -/
theorem memoryWriters : Obligations.MemoryWriters :=
  fun _ _ _ h hi => State.memRead_congr ((exec_effect h).mem_kept hi)

end Sys2Proof.Machine

/-! # Encoding: decode and encode are inverse, and which words decode -/

namespace Sys2Proof

/-! ## A word from its own fields -/

theorem wordNNN_fields {w : Word} {op : Nibble} (h : (opField w).toNat = op.toNat) : wordNNN op (nnnField w) = w := by
  apply BitVec.eq_of_toNat_eq
  rw [opField_toNat] at h
  rw [wordNNN_toNat, nnnField_toNat]
  omega

theorem wordXNN_fields {w : Word} {op : Nibble} {nn : Byte} (h : (opField w).toNat = op.toNat)
    (hnn : (nnField w).toNat = nn.toNat) : wordXNN op (xField w) nn = w := by
  apply BitVec.eq_of_toNat_eq
  rw [opField_toNat] at h
  rw [nnField_toNat] at hnn
  rw [wordXNN_toNat, xField_toNat]
  omega

theorem wordXYN_fields {w : Word} {op n : Nibble} (h : (opField w).toNat = op.toNat)
    (hn : (nField w).toNat = n.toNat) : wordXYN op (xField w) (yField w) n = w := by
  apply BitVec.eq_of_toNat_eq
  rw [opField_toNat] at h
  rw [nField_toNat] at hn
  rw [wordXYN_toNat, xField_toNat, yField_toNat]
  omega

/-! ## Decoding an encoded word -/

/-- 5xyn, for every n and either policy (R121). -/
theorem decode_word5xyn (p : LownibPolicy) (x y n : Nibble) :
    decode p (wordXYN 0x5#4 x y n) =
      if n = 0#4 ∨ p = .ignore then .ok (.seReg x y) else .error .lowNibble := by
  simp [decode, decodeXy0]

/-- 9xyn, for every n and either policy (R121). -/
theorem decode_word9xyn (p : LownibPolicy) (x y n : Nibble) :
    decode p (wordXYN 0x9#4 x y n) =
      if n = 0#4 ∨ p = .ignore then .ok (.sneReg x y) else .error .lowNibble := by
  simp [decode, decodeXy0]

/-- Settles O2: the fields of an encoded word are the operands it was made from, one case per family of R114. -/
theorem decodeInvertsEncode : Obligations.DecodeInvertsEncode := by
  intro p i _
  cases i with
  | cls | ret => rfl
  | jp | call | ldI | jpV0 | seImm | sneImm | ldImm | addImm | rnd | drw => simp [encode, decode]
  | seReg x y => exact (decode_word5xyn p x y 0#4).trans (if_pos (.inl rfl))
  | sneReg x y => exact (decode_word9xyn p x y 0#4).trans (if_pos (.inl rfl))
  | ldReg | orReg | andReg | xorReg | addReg | subReg | shr | subnReg | shl => simp [encode, decode, decodeAlu]
  | skp | sknp => simp [encode, decode, decodeKey]
  | ldVxDt | ldDtVx | ldStVx | addI | ldF | ldB | stRegs | ldRegs => simp [encode, decode, decodeMisc]

/-- Settles O5: the two equations of 5xyn and 9xyn, their condition met by ignore and failed by fault with n != 0. -/
theorem lowNibblePolicy : Obligations.LowNibblePolicy := by
  intro x y n
  refine ⟨(decode_word5xyn .ignore x y n).trans (if_pos (.inr rfl)),
    (decode_word9xyn .ignore x y n).trans (if_pos (.inr rfl)), fun hn => ?_⟩
  have hrefused : ¬(n = 0#4 ∨ LownibPolicy.fault = .ignore) := by simp [hn]
  exact ⟨(decode_word5xyn .fault x y n).trans (if_neg hrefused),
    (decode_word9xyn .fault x y n).trans (if_neg hrefused)⟩

/-- Settles O1, by evaluating the decoder on the fifteen words. -/
theorem knownWordsDecode : Obligations.KnownWordsDecode := by
  unfold Obligations.KnownWordsDecode
  decide

/-! ## What the decoder answers under LOWNIB_POLICY = fault -/

/-- The word is in one of the five rows of the table of illegal words, by its fields (R122). -/
def InIllegalRow (w : Word) : Prop :=
  ((opField w).toNat = 0x0 ∧ w.toNat ≠ 0x00E0 ∧ w.toNat ≠ 0x00EE) ∨
  (((opField w).toNat = 0x5 ∨ (opField w).toNat = 0x9) ∧ (nField w).toNat ≠ 0) ∨
  ((opField w).toNat = 0x8 ∧ 8 ≤ (nField w).toNat ∧ (nField w).toNat ≠ 0xE) ∨
  ((opField w).toNat = 0xE ∧ (nnField w).toNat ≠ 0x9E ∧ (nnField w).toNat ≠ 0xA1) ∨
  ((opField w).toNat = 0xF ∧ (nnField w).toNat ∉ [0x07, 0x15, 0x18, 0x1E, 0x29, 0x33, 0x55, 0x65])

/-- An answer that fits the word: an instruction whose word it is, or a refusal of a word of R122's table. -/
def AnswerFits (w : Word) : Except DecodeError Instr → Prop
  | .ok i => encode i = w
  | .error _ => InIllegalRow w

theorem decodeZero_fits {w : Word} (hop : (opField w).toNat = 0x0) : AnswerFits w (decodeZero w) := by
  unfold decodeZero
  split
  case isTrue h => exact h.symm
  case isFalse hcls =>
    split
    case isTrue h => exact h.symm
    case isFalse hret =>
      exact .inl ⟨hop, fun h => hcls (BitVec.eq_of_toNat_eq h), fun h => hret (BitVec.eq_of_toNat_eq h)⟩

theorem decodeXy0_fits {w : Word} {i : Instr} (hop : (opField w).toNat = 0x5 ∨ (opField w).toNat = 0x9)
    (hi : nField w = 0#4 → encode i = w) : AnswerFits w (decodeXy0 .fault w i) := by
  unfold decodeXy0
  split
  case isTrue h => exact hi (h.resolve_right (by decide))
  case isFalse h => exact .inr (.inl ⟨hop, fun hn => h (.inl (BitVec.eq_of_toNat_eq hn))⟩)

theorem decodeAlu_fits {w : Word} (hop : (opField w).toNat = 0x8) : AnswerFits w (decodeAlu w) := by
  unfold decodeAlu
  split
  case h_10 hE =>
    simp only [imp_false] at *
    exact .inr (.inr (.inl ⟨hop, by omega, hE⟩))
  all_goals exact wordXYN_fields hop ‹_›

theorem decodeKey_fits {w : Word} (hop : (opField w).toNat = 0xE) : AnswerFits w (decodeKey w) := by
  unfold decodeKey
  split
  case h_3 hskp hsknp => exact .inr (.inr (.inr (.inl ⟨hop, hskp, hsknp⟩)))
  all_goals exact wordXNN_fields hop ‹_›

theorem decodeMisc_fits {w : Word} (hop : (opField w).toNat = 0xF) : AnswerFits w (decodeMisc w) := by
  unfold decodeMisc
  split
  case h_9 h07 h15 h18 h1E h29 h33 h55 h65 =>
    exact .inr (.inr (.inr (.inr ⟨hop, by simpa using ⟨h07, h15, h18, h1E, h29, h33, h55, h65⟩⟩)))
  all_goals exact wordXNN_fields hop ‹_›

/-- Every answer of the decoder fits its word, by the op field (R114). -/
theorem decode_fits (w : Word) : AnswerFits w (decode .fault w) := by
  unfold decode
  split
  case h_1 hop => exact decodeZero_fits hop
  case h_6 hop => exact decodeXy0_fits (.inl hop) fun hn => wordXYN_fields hop (congrArg BitVec.toNat hn)
  case h_9 hop => exact decodeAlu_fits hop
  case h_10 hop => exact decodeXy0_fits (.inr hop) fun hn => wordXYN_fields hop (congrArg BitVec.toNat hn)
  case h_14 hop => exact wordXYN_fields hop rfl
  case h_15 hop => exact decodeKey_fits hop
  case h_16 =>
    simp only [imp_false] at *
    exact decodeMisc_fits (by omega)
  case h_2 hop | h_3 hop | h_11 hop | h_12 hop => exact wordNNN_fields hop
  case h_4 hop | h_5 hop | h_7 hop | h_8 hop | h_13 hop => exact wordXNN_fields hop rfl

/-- No word the encoder makes is in the table of illegal words. -/
theorem not_inIllegalRow_encode (i : Instr) : ¬InIllegalRow (encode i) := by
  cases i with
  | cls | ret => simp [InIllegalRow, encode, opField]
  | _ => simp [InIllegalRow, encode]

/-- A word is refused exactly when it is in the table: a refusal fits only a word of the table, and no word of the table
is the word of an instruction. -/
theorem decode_error_iff (w : Word) : (∃ e, decode .fault w = .error e) ↔ InIllegalRow w := by
  have hfits := decode_fits w
  cases h : decode .fault w with
  | error e =>
    rw [h] at hfits
    exact ⟨fun _ => hfits, fun _ => ⟨e, rfl⟩⟩
  | ok i =>
    rw [h] at hfits
    obtain rfl : encode i = w := hfits
    exact ⟨fun ⟨_, he⟩ => (nomatch he), fun hrow => absurd hrow (not_inIllegalRow_encode i)⟩

/-- Settles O3: the answer fits the word. -/
theorem encodeInvertsDecode : Obligations.EncodeInvertsDecode := by
  intro w i h
  have hfits := decode_fits w
  rwa [h] at hfits

/-- Settles O4: the rows of the table by the word's fields, read as numbers. -/
theorem illegalWordsExactly : Obligations.IllegalWordsExactly := by
  intro w
  simpa only [InIllegalRow, opField_toNat, nField_toNat, nnField_toNat] using decode_error_iff w

end Sys2Proof

/-! # The engine: fetch, step and cycle -/

namespace Sys2Proof.Machine

/-! ## The fetch -/

/-- Settles O6: in range the fetch reads both bytes and joins them. -/
theorem fetchIsBigEndian : Obligations.FetchIsBigEndian := by
  intro s hpc
  obtain ⟨w, hw, -⟩ := fetchWord_bytes hpc
  obtain ⟨hi, lo, hhi, hlo, rfl⟩ := fetchWord_eq_some.1 hw
  exact ⟨hi, lo, _, hhi, hlo, hw, joinBytes_toNat hi lo⟩

/-! ## A halted machine -/

theorem step_of_halted {s : State} (h : s.status.halted = true) : step s = .next s := by
  rw [step, if_pos h]

theorem cycle_of_halted {s : State} (h : s.status.halted = true) : cycle s = .next s := by
  rw [cycle, if_pos h]

/-- Settles O9: both return at once. -/
theorem haltedMachineStaysAsItIs : Obligations.HaltedMachineStaysAsItIs :=
  fun _ h => ⟨step_of_halted h, cycle_of_halted h⟩

/-! ## One instruction step, by what the fetch and the decoder answer -/

theorem step_of_instrStep {s u : State} (hh : s.status.halted = false) (hu : instrStep s = .next u) :
    step s = .next u.countStep := by
  simp [step, hh, hu]

theorem instrStep_of_fetch_none {s : State} (hw : s.fetchWord = none) :
    instrStep s = .next s.beginStep.raiseFetch := by
  simp [instrStep, hw]

theorem instrStep_of_decode_error {s : State} {w : Word} {e : DecodeError} (hw : s.fetchWord = some w)
    (hd : decode s.params.lownib w = .error e) : instrStep s = .next (s.beginStep.raiseDecode w) := by
  simp [instrStep, hw, hd]

theorem instrStep_of_decode_ok {s : State} {w : Word} {i : Instr} (hw : s.fetchWord = some w)
    (hd : decode s.params.lownib w = .ok i) : instrStep s = mapNext State.advance (exec i s.beginStep) := by
  simp [instrStep, hw, hd]

/-! ## The count in the batch -/

theorem advance_of_halted {s : State} (h : s.status.halted = true) : s.advance = s := by
  simp [State.advance, h]

theorem advance_of_running {s : State} (h : s.status.halted = false) :
    s.advance = { s with pc := if s.moved then s.pc else s.pc + 2#16 } := by
  simp only [State.advance, h, Bool.false_or]
  split <;> rfl

theorem countStep_of_halted {s : State} (h : s.status.halted = true) : s.countStep = s := by
  rw [State.countStep, if_pos h]

theorem countStep_of_lt {s : State} (h : s.status.halted = false) (hk : s.k + 1 < 10) :
    s.countStep = { s with k := s.k + 1 } := by
  simp [State.countStep, h, show ¬10 ≤ s.k + 1 by omega]

/-- The tenth step ends the cycle with the tick (R147). -/
theorem countStep_of_ge {s : State} (h : s.status.halted = false) (hk : 10 ≤ s.k + 1) :
    s.countStep = ({ s with k := 0 } : State).tick := by
  simp [State.countStep, h, hk]

/-- Settles O10: the fetch answers none before anything is read, and a faulting step is not counted. -/
theorem fetchBoundFault : Obligations.FetchBoundFault := by
  intro s hh hpc
  have hfault := instrStep_of_fetch_none (fetchWord_eq_none.2 hpc)
  rw [step_of_instrStep hh hfault, countStep_of_halted rfl]
  rfl

/-- Settles O11: the decoder's error raises, and a faulting step is not counted. -/
theorem decodeFault : Obligations.DecodeFault := by
  intro s w e hh hw hd
  rw [step_of_instrStep hh (instrStep_of_decode_error hw hd), countStep_of_halted rfl]
  rfl

/-- Settles O7: the step is the advance and the count after exec, each said by its cases. -/
theorem stepRunsDecodedInstruction : Obligations.StepRunsDecodedInstruction := by
  intro s t i hh hrun hexec
  obtain ⟨-, w, hw, hd⟩ := aboutToRun_fetch hrun
  rw [step_run hh hw hd hexec]
  cases hf : t.status.halted with
  | true => rw [advance_of_halted hf, countStep_of_halted hf, if_pos rfl]
  | false =>
    have hadv : t.advance.status.halted = false := by rwa [advance_status]
    rw [if_neg Bool.false_ne_true]
    by_cases hk : t.k + 1 < 10
    · rw [countStep_of_lt hadv (by rwa [advance_k]), advance_of_running hf, if_pos hk]
    · rw [countStep_of_ge hadv (by rw [advance_k]; omega), advance_of_running hf, if_neg hk]
      rfl

/-! ## moved -/

/-- An instruction assigns PC and sets moved without a fault, or leaves both; one that would assign PC leaves them only
by its fault (R144). -/
theorem Effect.moves_or_keeps {i : Instr} {s t : State} (e : Effect s i t) :
    (assignsPc i s = true ∧ t.status = s.status ∧ t.moved = true) ∨
    (t.pc = s.pc ∧ t.moved = s.moved ∧ (assignsPc i s = true → t.status.halted = true)) := by
  cases ha : assignsPc i s with
  | false =>
    obtain ⟨hpc, hmoved⟩ := e.pc_kept ha
    exact .inr ⟨hpc, hmoved, nofun⟩
  | true =>
    cases e with
    | jump | skip | skipKey | call | ret => exact .inl ⟨rfl, rfl, rfl⟩
    | callFault | retFault => exact .inr ⟨rfl, rfl, fun _ => rfl⟩
    | registers v d stays kept => cases stays.symm.trans ha
    | index w hi => obtain ⟨n, rfl⟩ | ⟨x, rfl⟩ | ⟨x, rfl⟩ := hi <;> cases ha
    | store m q hi hm hq => obtain ⟨x, rfl⟩ | ⟨x, rfl⟩ := hi <;> cases ha
    | clear | draw | load | delayTimer | soundTimer => cases ha

/-- Settles O13: from a state with moved clear, moved tells the two outcomes of execute apart. -/
theorem pcWritersSetMoved : Obligations.PcWritersSetMoved := by
  intro s t i hh hm h
  obtain ⟨ha, hstatus, hmoved⟩ | ⟨hpc, hmoved, hfault⟩ := (exec_effect h).moves_or_keeps
  · simp [ha, hstatus, hh, hmoved]
  · rw [hm] at hmoved
    refine ⟨⟨fun hset => ?_, fun ⟨hrun, ha⟩ => ?_⟩, fun _ => hpc⟩
    · cases hmoved.symm.trans hset
    · cases hrun.symm.trans (hfault ha)

/-! ## The cycle -/

/-- s with the count taken out of the state, as `cycleAsWritten` keeps it outside (log 2). -/
def State.uncounted (s : State) : State := { s with k := 0 }

@[simp] theorem uncounted_status (s : State) : s.uncounted.status = s.status := rfl

theorem advance_uncounted (s : State) : s.uncounted.advance = s.advance.uncounted := by
  unfold State.advance
  rw [apply_ite State.uncounted]
  rfl

/-- An instruction step answers a next state, keeps the batch position, and does not see it. -/
theorem instrStep_uncounted (s : State) :
    ∃ u, instrStep s = .next u ∧ u.k = s.k ∧ instrStep s.uncounted = .next u.uncounted := by
  cases hw : s.fetchWord with
  | none => exact ⟨_, instrStep_of_fetch_none hw, rfl, instrStep_of_fetch_none hw⟩
  | some w =>
    cases hd : decode s.params.lownib w with
    | error e => exact ⟨_, instrStep_of_decode_error hw hd, rfl, instrStep_of_decode_error hw hd⟩
    | ok i =>
      obtain ⟨u, hu⟩ := exec_next i s.beginStep
      obtain ⟨-, -, hk, -⟩ := parametersAndDraws _ _ _ hu
      have hunseen : exec i s.uncounted.beginStep = mapNext State.uncounted (exec i s.beginStep) :=
        (batchPositionAndSoundTimerUnread s.beginStep 0 0#8 i).1
      refine ⟨u.advance, ?_, ?_, ?_⟩
      · rw [instrStep_of_decode_ok hw hd, hu, mapNext_next]
      · rw [advance_k, hk]
        rfl
      · rw [instrStep_of_decode_ok (s := s.uncounted) hw hd, hunseen, hu, mapNext_next, mapNext_next,
          advance_uncounted]

/-- The last n steps of a cycle from b, by the model's batch, and from c, by the spec's loop, end in one state, but for the
count, which the batch leaves at 0 unless a fault ended it. -/
def EndAlike (n : Nat) (b c : State) : Prop :=
  ∃ t, batch n b = .next t ∧ cycleAsWritten n c = .next t.uncounted ∧ (t.status.halted = false → t.k = 0)

/-- One step of both: a fault ends them in the same state, else what is left of each decides. -/
theorem endAlike_succ {n : Nat} {s : State} (hh : s.status.halted = false)
    (rest : ∀ u : State, u.status.halted = false → u.k = s.k → EndAlike n u.countStep u.uncounted) :
    EndAlike (n + 1) s s.uncounted := by
  obtain ⟨u, hu, huk, hu0⟩ := instrStep_uncounted s
  have hs := step_of_instrStep hh hu
  cases hf : u.status.halted with
  | true =>
    rw [countStep_of_halted hf] at hs
    exact ⟨u, by simp [batch, hs, hf], by simp [cycleAsWritten, hu0, hf], by simp [hf]⟩
  | false =>
    obtain ⟨t, hb, hc, hk⟩ := rest u hf huk
    exact ⟨t, by simp [batch, hs, hf, hb], by rw [← hc]; simp [cycleAsWritten, hu0, hf], hk⟩

/-- With n + 1 steps to go, the model's batch and the spec's loop end alike: the tenth step carries the tick (log 2). -/
theorem endAlike_of_remaining (n : Nat) (s : State) (hh : s.status.halted = false) (hk : s.k + (n + 1) = 10) :
    EndAlike (n + 1) s s.uncounted := by
  induction n generalizing s with
  | zero =>
    refine endAlike_succ hh fun u hf huk => ?_
    rw [countStep_of_ge hf (by omega)]
    exact ⟨_, rfl, rfl, fun _ => rfl⟩
  | succ n ih =>
    refine endAlike_succ hh fun u hf huk => ?_
    rw [countStep_of_lt hf (by omega)]
    exact ih { u with k := u.k + 1 } hf (by simp only; omega)

/-- Settles O16: a halted machine returns; else the cycle is the batch of ten, run beside the spec's loop. -/
theorem cycleIsTenStepsThenTick : Obligations.CycleIsTenStepsThenTick := by
  intro s
  refine ⟨cycle_of_halted, fun hh hk => ?_⟩
  have hcycle : cycle s = batch 10 s := by simp [cycle, hh, hk]
  have hs : s.uncounted = s := by rw [State.uncounted, ← hk]
  obtain ⟨t, ht, hwritten, htk⟩ := endAlike_of_remaining 9 s hh (by rw [hk])
  rw [hs] at hwritten
  rw [hcycle, ht]
  refine ⟨hwritten.symm, fun u hu => ?_⟩
  cases hu
  exact htk

end Sys2Proof.Machine

/-! # Display: 00E0 and Dxyn -/

namespace Sys2Proof.Machine

/-! ## 00E0 -/

/-- Settles O26: the instruction is fbClear. -/
theorem clsTurnsEveryCellOff : Obligations.ClsTurnsEveryCellOff :=
  ⟨⟨rfl, fun p => decodeInvertsEncode p .cls rfl⟩, fun s => ⟨s.fbClear, rfl, fun j _ => fbRead_fbClear s j, rfl⟩⟩

/-! ## Dxyn, by where its rows lie -/

/-- The set bits of an m-row sprite drawn by Dxyn from s: VF cleared, then one plot a bit (R164). -/
def drawRows (x y : Nibble) (m : Nat) (s : State) : State :=
  (spriteBits s.mem s.i.toNat m 0).foldl (plotBit x y (s.getV x).toNat (s.getV y).toNat) (s.setV vF 0#8)

theorem drawRows_drawRel (x y : Nibble) (m : Nat) (s : State) : DrawRel s (drawRows x y m s) :=
  (setV_drawRel s 0#8).trans (plotBits_drawRel ..)

/-- Inside the memory, or with no row, all rows are drawn. -/
theorem exec_drw_inMemory {x y n : Nibble} {s : State} (h : n = 0#4 ∨ s.i.toNat + n.toNat ≤ 0x1000) :
    exec (.drw x y n) s = .next (drawRows x y n.toNat s) := by
  have hin : s.i.toNat + n.toNat ≤ 0x1000 ∨ n.toNat = 0 := h.symm.imp_right fun hn => by rw [hn]; rfl
  exact (execDrw_eq x y n s).trans (congrArg _ (if_pos hin))

/-- Leaving the memory, the rows inside are drawn, then MemoryBound is taken (R168, R89). -/
theorem exec_drw_outside {x y n : Nibble} {s : State} (h : 0x1000 < s.i.toNat + n.toNat) (hn : 0 < n.toNat) :
    exec (.drw x y n) s =
      .next ((drawRows x y (0x1000 - s.i.toNat) s).raiseBound (encode (.drw x y n)) (max s.i.toNat 0x1000)) := by
  have hout : ¬(s.i.toNat + n.toNat ≤ 0x1000 ∨ n.toNat = 0) := by omega
  exact (execDrw_eq x y n s).trans (congrArg _ (if_neg hout))

/-- Settles O29: the rows inside number fewer than n, so they are a draw of their own, which keeps PC and I. -/
theorem drawFaultKeepsRowsDrawn : Obligations.DrawFaultKeepsRowsDrawn := by
  intro s x y n hout hn
  have hr : (BitVec.ofNat 4 (0x1000 - s.i.toNat)).toNat = 0x1000 - s.i.toNat := by
    rw [BitVec.toNat_ofNat]
    omega
  have hin : BitVec.ofNat 4 (0x1000 - s.i.toNat) = 0#4 ∨
      s.i.toNat + (BitVec.ofNat 4 (0x1000 - s.i.toNat)).toNat ≤ 0x1000 := by
    rw [hr]
    by_cases hi : s.i.toNat ≤ 0x1000
    · exact .inr (by omega)
    · exact .inl (by rw [Nat.sub_eq_zero_of_le (by omega)])
  have hd := (drawRows_drawRel x y (0x1000 - s.i.toNat) s).1
  refine ⟨drawRows x y (0x1000 - s.i.toNat) s, by rw [exec_drw_inMemory hin, hr], by rw [hd], ?_⟩
  rw [exec_drw_outside hout hn, hd]
  rfl

/-! ## Dxyn at coordinates that do not change -/

/-- VF cleared, then the cells of the n-row sprite at I plotted from column cx, row cy. -/
def drawAt (cx cy n : Nat) (s : State) : State := plots (spriteCells s.mem s.i.toNat n cx cy) (s.setV vF 0#8)

theorem drawAt_drawRel (cx cy n : Nat) (s : State) : DrawRel s (drawAt cx cy n s) :=
  (setV_drawRel s 0#8).trans (plots_drawRel ..)

theorem fbRead_drawAt_of_hit {cx cy n j : Nat} {s : State} (hn : n ≤ 15) (h : SpriteHits s cx cy n j) :
    (drawAt cx cy n s).fbRead j = !s.fbRead j := by
  rw [← mem_spriteCells] at h
  rw [drawAt, fbRead_plots _ _ (nodup_spriteCells _ _ _ _ _ hn) fun _ => lt_of_mem_spriteCells, if_pos h, fbRead_setV]

theorem fbRead_drawAt_of_not_hit {cx cy n j : Nat} {s : State} (hn : n ≤ 15) (h : ¬SpriteHits s cx cy n j) :
    (drawAt cx cy n s).fbRead j = s.fbRead j := by
  rw [← mem_spriteCells] at h
  rw [drawAt, fbRead_plots _ _ (nodup_spriteCells _ _ _ _ _ hn) fun _ => lt_of_mem_spriteCells, if_neg h, fbRead_setV]

/-- VF is the collision, 1 or 0 and nothing else (R164). -/
theorem getV_drawAt_collision {cx cy n : Nat} (s : State) (hn : n ≤ 15) :
    ((drawAt cx cy n s).getV vF = 1#8 ↔ ∃ j, SpriteHits s cx cy n j ∧ s.fbRead j = true) ∧
    ((drawAt cx cy n s).getV vF = 0#8 ↔ ∀ j, SpriteHits s cx cy n j → s.fbRead j = false) := by
  rw [drawAt, getV_plots _ _ (nodup_spriteCells _ _ _ _ _ hn) fun _ => lt_of_mem_spriteCells]
  simp only [fbRead_setV, getV_setV_self, ← mem_spriteCells]
  by_cases h : ∃ j ∈ spriteCells s.mem s.i.toNat n cx cy, s.fbRead j = true
  · rw [if_pos h]
    simpa using h
  · rw [if_neg h]
    simpa using h

/-- Latched, or neither register VF: the draw is that of the coordinates V[x] and V[y] had at its start (R165). -/
theorem exec_drw_fixed {x y n : Nibble} {s : State} (hin : n = 0#4 ∨ s.i.toNat + n.toNat ≤ 0x1000)
    (hfix : s.params.coordRead = .latched ∨ (x ≠ vF ∧ y ≠ vF)) :
    exec (.drw x y n) s = .next (drawAt (s.getV x).toNat (s.getV y).toNat n.toNat s) := by
  rw [exec_drw_inMemory hin, drawRows, plotBits_fixed]
  · rfl
  · exact hfix.imp_right fun ⟨hx, hy⟩ => ⟨hx, hy, by rw [getV_setV_ne s _ hx], by rw [getV_setV_ne s _ hy]⟩

/-- Settles O27: the draw plots each cell of the sprite once. -/
theorem drawTogglesTheSprite : Obligations.DrawTogglesTheSprite := by
  intro s x y n hin hfix
  have hn : n.toNat ≤ 15 := by omega
  obtain ⟨hone, hzero⟩ := getV_drawAt_collision (cx := (s.getV x).toNat) (cy := (s.getV y).toNat) s hn
  obtain ⟨hframe, hothers⟩ := drawAt_drawRel (s.getV x).toNat (s.getV y).toNat n.toNat s
  exact ⟨_, exec_drw_fixed hin hfix, fun _ => fbRead_drawAt_of_hit hn, fun _ => fbRead_drawAt_of_not_hit hn,
    hone.2, hzero.2, hothers, hframe⟩

/-! ## The same sprite drawn twice -/

/-- Drawing does not move the sprite: its bytes and I are kept. -/
theorem spriteHits_drawRel {s t : State} (h : DrawRel s t) (cx cy n j : Nat) :
    SpriteHits t cx cy n j ↔ SpriteHits s cx cy n j := by
  rw [SpriteHits, SpriteHits, h.mem, h.i]

theorem fb_ext {s t : State} (h : ∀ j, t.fbRead j = s.fbRead j) : t.fb = s.fb :=
  BitVec.eq_of_getLsbD_eq fun j _ => h j

/-- The second of two equal draws toggles the same cells back (R167). -/
theorem drawAt_drawAt_fb {cx cy n : Nat} (s : State) (hn : n ≤ 15) : (drawAt cx cy n (drawAt cx cy n s)).fb = s.fb := by
  refine fb_ext fun j => ?_
  have hsame := spriteHits_drawRel (drawAt_drawRel cx cy n s) cx cy n j
  by_cases h : SpriteHits s cx cy n j
  · rw [fbRead_drawAt_of_hit hn (hsame.2 h), fbRead_drawAt_of_hit hn h, Bool.not_not]
  · rw [fbRead_drawAt_of_not_hit hn (mt hsame.1 h), fbRead_drawAt_of_not_hit hn h]

/-- The cells the second draw finds on are those the first found off, and the other way round (log 22). -/
theorem getV_drawAt_drawAt_collision {cx cy n : Nat} (s : State) (hn : n ≤ 15) :
    ((drawAt cx cy n (drawAt cx cy n s)).getV vF = 1#8 ↔ ∃ j, SpriteHits s cx cy n j ∧ s.fbRead j = false) ∧
    ((drawAt cx cy n (drawAt cx cy n s)).getV vF = 0#8 ↔ ∀ j, SpriteHits s cx cy n j → s.fbRead j = true) := by
  have hsame := spriteHits_drawRel (drawAt_drawRel cx cy n s) cx cy n
  have hflip (j : Nat) (h : SpriteHits s cx cy n j) : (drawAt cx cy n s).fbRead j = !s.fbRead j :=
    fbRead_drawAt_of_hit hn h
  rw [(getV_drawAt_collision _ hn).1, (getV_drawAt_collision _ hn).2]
  simp only [hsame]
  constructor
  · exact exists_congr fun j => and_congr_right fun h => by simp [hflip j h]
  · exact forall_congr' fun j => imp_congr_right fun h => by simp [hflip j h]

/-- Settles O30: both draws are at the same coordinates, since a draw keeps every register but VF. -/
theorem drawTwiceRestores : Obligations.DrawTwiceRestores := by
  intro s x y n hin hx hy
  have hn : n.toNat ≤ 15 := by omega
  have hd := drawAt_drawRel (s.getV x).toNat (s.getV y).toNat n.toNat s
  have hsecond := exec_drw_fixed (s := drawAt (s.getV x).toNat (s.getV y).toNat n.toNat s) (x := x) (y := y) (n := n)
    (by rwa [hd.i]) (.inr ⟨hx, hy⟩)
  rw [hd.2 x hx, hd.2 y hy] at hsecond
  exact ⟨_, _, exec_drw_fixed hin (.inr ⟨hx, hy⟩), hsecond, drawAt_drawAt_fb s hn, getV_drawAt_drawAt_collision s hn⟩

/-! ## Dxyn under the live reading -/

/-- The cells of the given bits of a sprite drawn from column cx, row cy, in their order. -/
def bitCells (cx cy : Nat) (l : List (Nat × Nat)) : List Nat := l.map fun p => pixelIndex (cx + p.2) (cy + p.1)

theorem lt_of_mem_bitCells {cx cy j : Nat} {l : List (Nat × Nat)} (h : j ∈ bitCells cx cy l) : j < 2048 := by
  obtain ⟨p, -, rfl⟩ := List.mem_map.1 h
  exact pixelIndex_lt _ _

/-- No two bits of a part of a sprite meet (R167). -/
theorem nodup_bitCells {m : Memory} {base n : Nat} (hn : n ≤ 15) {l : List (Nat × Nat)}
    (h : l.Sublist (spriteBits m base n 0)) (cx cy : Nat) : (bitCells cx cy l).Nodup :=
  (nodup_spriteCells m base n cx cy hn).sublist (h.map _)

/-- l holds the set bits number lo to hi - 1 of the n-row sprite at base, the bit of row r and column c having number
8 r + c. -/
def BitsBetween (m : Memory) (base n lo hi : Nat) (l : List (Nat × Nat)) : Prop :=
  ∀ q, q ∈ l ↔ q ∈ spriteBits m base n 0 ∧ lo ≤ 8 * q.1 + q.2 ∧ 8 * q.1 + q.2 < hi

theorem BitsBetween.mem_bitCells {s : State} {n lo hi : Nat} {l : List (Nat × Nat)}
    (hl : BitsBetween s.mem s.i.toNat n lo hi l) (cx cy j : Nat) :
    j ∈ bitCells cx cy l ↔ SpriteHitsBetween s cx cy n lo hi j := by
  simp only [bitCells, List.mem_map, hl _, Prod.exists, mem_spriteBits, pixelIndex, SpriteHitsBetween]
  constructor
  · rintro ⟨row, col, ⟨⟨-, hrow, hcol, hset⟩, hlo, hhi⟩, hj⟩
    exact ⟨row, col, by omega, hcol, hlo, hhi, hset, hj⟩
  · rintro ⟨row, col, hrow, hcol, hlo, hhi, hset, hj⟩
    exact ⟨row, col, ⟨⟨by omega, by omega, hcol, hset⟩, hlo, hhi⟩, hj⟩

/-- A sprite's bits before one of them, up to and including it, and after it, by their numbers. -/
theorem bitsBetween_split {m : Memory} {base n : Nat} {p : Nat × Nat} (h : p ∈ spriteBits m base n 0) :
    ∃ l r, spriteBits m base n 0 = l ++ p :: r ∧ BitsBetween m base n 0 (8 * p.1 + p.2) l ∧
      BitsBetween m base n 0 (8 * p.1 + p.2 + 1) (l ++ [p]) ∧ BitsBetween m base n (8 * p.1 + p.2 + 1) (8 * n) r := by
  obtain ⟨l, r, e, hl, hr⟩ := spriteBits_split h
  have hlast {q : Nat × Nat} (hq : q ∈ spriteBits m base n 0) : 8 * q.1 + q.2 < 8 * n := by
    obtain ⟨-, hrow, hcol, -⟩ := (mem_spriteBits m base n 0 q.1 q.2).1 hq
    omega
  refine ⟨l, r, e, fun q => ?_, fun q => ?_, fun q => ?_⟩
  · rw [hl]
    exact and_congr_right fun _ => by omega
  · rw [List.mem_append, List.mem_singleton]
    constructor
    · rintro (hq | rfl)
      · obtain ⟨hq, hlt⟩ := (hl q).1 hq
        exact ⟨hq, by omega, by omega⟩
      · exact ⟨h, by omega, by omega⟩
    · rintro ⟨hq, -, hle⟩
      have hnr : q ∉ r := fun hqr => by
        have := ((hr q).1 hqr).2
        omega
      rw [e] at hq
      simpa [hnr] using hq
  · rw [hr]
    exact and_congr_right fun hq => by
      have := hlast hq
      omega

/-- Two rounds of plots, each of distinct cells: changed is what exactly one of them plots. -/
theorem fbRead_plots_plots_ne {a b : List Nat} {s : State} (ha : a.Nodup) (hb : b.Nodup) (hla : ∀ j ∈ a, j < 2048)
    (hlb : ∀ j ∈ b, j < 2048) (j : Nat) :
    (plots b (plots a s)).fbRead j ≠ s.fbRead j ↔ ¬(j ∈ a ↔ j ∈ b) := by
  rw [fbRead_plots b _ hb hlb, fbRead_plots a _ ha hla]
  by_cases hja : j ∈ a <;> by_cases hjb : j ∈ b <;> simp [hja, hjb]

theorem plots_append (a b : List Nat) (s : State) : plots (a ++ b) s = plots b (plots a s) := List.foldl_append

/-- Live, no bit meeting a cell that is on: the draw is that of the coordinates with VF read as 0. -/
theorem exec_drw_live_noHit {x y n : Nibble} {s : State} (hin : n = 0#4 ∨ s.i.toNat + n.toNat ≤ 0x1000)
    (hlive : s.params.coordRead = .live)
    (hoff : ∀ j, SpriteHits s (liveCoord s x 0) (liveCoord s y 0) n.toNat j → s.fbRead j = false) :
    exec (.drw x y n) s = .next (drawAt (liveCoord s x 0) (liveCoord s y 0) n.toNat s) := by
  have hcoord := liveCoord_drawRel (setV_drawRel s 0#8)
  have hdistinct := nodup_spriteCells s.mem s.i.toNat n.toNat (liveCoord s x 0) (liveCoord s y 0) (by omega)
  rw [exec_drw_inMemory hin, drawRows, plotBits_live x y _ _ _ _ (s.setV vF 0#8) _ hlive (getV_setV_self s vF 0#8)
    (hcoord x 0).symm (hcoord y 0).symm hdistinct fun p hp => hoff _ ((mem_spriteCells ..).1 (List.mem_map_of_mem hp))]
  rfl

/-- Live, p the first bit to meet a cell that is on: the bits up to p are drawn with VF read as 0, and p sets it. -/
theorem plotBits_live_upTo_hit (x y : Nibble) (lx ly : Nat) {cx cy : Nat} {s : State} {l : List (Nat × Nat)}
    {p : Nat × Nat} (hlive : s.params.coordRead = .live) (hf : s.getV vF = 0#8) (hx : cx = liveCoord s x 0)
    (hy : cy = liveCoord s y 0) (hn : (bitCells cx cy (l ++ [p])).Nodup)
    (hoff : ∀ j ∈ bitCells cx cy l, s.fbRead j = false)
    (hon : s.fbRead (pixelIndex (cx + p.2) (cy + p.1)) = true) :
    (l ++ [p]).foldl (plotBit x y lx ly) s = plots (bitCells cx cy (l ++ [p])) s ∧
      (plots (bitCells cx cy (l ++ [p])) s).getV vF = 1#8 := by
  have hcells : bitCells cx cy (l ++ [p]) = bitCells cx cy l ++ [pixelIndex (cx + p.2) (cy + p.1)] := List.map_append
  constructor
  · have hnl : (bitCells cx cy l).Nodup := by
      rw [hcells] at hn
      exact hn.of_append_left
    have hu := plots_drawRel (bitCells cx cy l) s
    have hu0 : ((plots (bitCells cx cy l) s).getV vF).toNat = 0 := by
      rw [getV_plots _ _ hnl fun _ => lt_of_mem_bitCells, if_neg, hf]
      · rfl
      · rintro ⟨j, hj, hjon⟩
        exact Bool.false_ne_true ((hoff j hj).symm.trans hjon)
    have hbefore : l.foldl (plotBit x y lx ly) s = plots (bitCells cx cy l) s :=
      plotBits_live x y lx ly cx cy s l hlive hf hx hy hnl fun q hq => hoff _ (List.mem_map_of_mem hq)
    have hcx : coordNow lx x (plots (bitCells cx cy l) s) = cx :=
      coordNow_live lx (by rwa [hu.params]) hu0 (by rwa [liveCoord_drawRel hu])
    have hcy : coordNow ly y (plots (bitCells cx cy l) s) = cy :=
      coordNow_live ly (by rwa [hu.params]) hu0 (by rwa [liveCoord_drawRel hu])
    rw [List.foldl_append, hbefore, hcells, plots_append, List.foldl_cons, plotBit, hcx, hcy]
    rfl
  · rw [getV_plots _ _ hn fun _ => lt_of_mem_bitCells, if_pos]
    exact ⟨_, by simp [hcells], hon⟩

/-- Live, p the first bit to meet a cell that is on: the bits after p are drawn with VF read as 1. -/
theorem plotBits_live_firstHit (x y : Nibble) (lx ly : Nat) {cx cy dx dy : Nat} {s : State} {l : List (Nat × Nat)}
    {p : Nat × Nat} (r : List (Nat × Nat)) (hlive : s.params.coordRead = .live) (hf : s.getV vF = 0#8)
    (hx : cx = liveCoord s x 0) (hy : cy = liveCoord s y 0) (hdx : dx = liveCoord s x 1) (hdy : dy = liveCoord s y 1)
    (hn : (bitCells cx cy (l ++ [p])).Nodup) (hoff : ∀ j ∈ bitCells cx cy l, s.fbRead j = false)
    (hon : s.fbRead (pixelIndex (cx + p.2) (cy + p.1)) = true) :
    (l ++ p :: r).foldl (plotBit x y lx ly) s = plots (bitCells dx dy r) (plots (bitCells cx cy (l ++ [p])) s) ∧
      ((l ++ p :: r).foldl (plotBit x y lx ly) s).getV vF = 1#8 := by
  obtain ⟨hupTo, hf1⟩ := plotBits_live_upTo_hit x y lx ly hlive hf hx hy hn hoff hon
  have hu := plots_drawRel (bitCells cx cy (l ++ [p])) s
  rw [List.append_cons, List.foldl_append, hupTo]
  exact plotBits_live_after x y lx ly dx dy _ r (by rwa [hu.params]) hf1 (by rwa [liveCoord_drawRel hu])
    (by rwa [liveCoord_drawRel hu])

/-- Settles O28: without a collision VF reads 0 throughout; else the bits up to the first that collides are drawn with
VF read as 0, the others with VF read as 1. -/
theorem liveDrawReadsClearedFlag : Obligations.LiveDrawReadsClearedFlag := by
  intro s x y n hin hlive
  have hn : n.toNat ≤ 15 := by omega
  refine ⟨fun hoff => ?_, fun row col hrow hcol hset hon hfirst => ?_⟩
  · obtain ⟨hframe, hothers⟩ := drawAt_drawRel (liveCoord s x 0) (liveCoord s y 0) n.toNat s
    refine ⟨_, exec_drw_live_noHit hin hlive hoff, fun j => ?_, (getV_drawAt_collision s hn).2.2 hoff, hothers, hframe⟩
    by_cases h : SpriteHits s (liveCoord s x 0) (liveCoord s y 0) n.toNat j
    · simp [fbRead_drawAt_of_hit hn h, h, hoff j h]
    · simp [fbRead_drawAt_of_not_hit hn h, h]
  · obtain ⟨l, r, hbits, hl, hlp, hr⟩ :=
      bitsBetween_split ((mem_spriteBits s.mem s.i.toNat n.toNat 0 row col).2 ⟨by omega, by omega, hcol, hset⟩)
    have hsub : (l ++ [(row, col)]).Sublist (spriteBits s.mem s.i.toNat n.toNat 0) := by
      rw [hbits]
      simp
    have hsubr : r.Sublist (spriteBits s.mem s.i.toNat n.toNat 0) := by
      rw [hbits]
      simp
    have hnd := nodup_bitCells hn hsub (liveCoord s x 0) (liveCoord s y 0)
    have hcoord := liveCoord_drawRel (setV_drawRel s 0#8)
    obtain ⟨hdraw, hv⟩ := plotBits_live_firstHit x y (s.getV x).toNat (s.getV y).toNat (s := s.setV vF 0#8) r hlive
      (getV_setV_self s vF 0#8) (hcoord x 0).symm (hcoord y 0).symm (hcoord x 1).symm (hcoord y 1).symm hnd
      (fun j hj => hfirst j ((hl.mem_bitCells _ _ j).1 hj)) hon
    rw [← hbits] at hdraw hv
    obtain ⟨hframe, hothers⟩ := drawRows_drawRel x y n.toNat s
    refine ⟨_, exec_drw_inMemory hin, fun j => ?_, hv, hothers, hframe⟩
    rw [drawRows, hdraw, ← hlp.mem_bitCells, ← hr.mem_bitCells]
    exact fbRead_plots_plots_ne (s := s.setV vF 0#8) hnd (nodup_bitCells hn hsubr _ _) (fun _ => lt_of_mem_bitCells)
      (fun _ => lt_of_mem_bitCells) j

end Sys2Proof.Machine

/-! # Control transfer: 00EE, 1nnn, 2nnn, Bnnn -/

namespace Sys2Proof.Machine

/-- Every instruction has its encoder's word, and no other reading of that word. -/
theorem encodedAs_encode (i : Instr) : EncodedAs (encode i) i :=
  ⟨rfl, fun p => decodeInvertsEncode p i (by cases i <;> rfl)⟩

/-! ## Execute, a case per outcome -/

theorem exec_ret_of_cons {s : State} {a : Word} {rest : List Word} (h : s.stack = a :: rest) :
    exec .ret s = .next ((s.setStack rest).jump a) := by
  simp only [exec, execRet, h]

theorem exec_ret_of_nil {s : State} (h : s.stack = []) :
    exec .ret s = .next (s.raise .stackUnderflow (some (encode .ret)) none) := by
  simp only [exec, execRet, h]

theorem exec_call_of_room {s : State} (nnn : Addr) (h : s.stack.length < Config.stackDepth) :
    exec (.call nnn) s = .next ((s.setStack ((s.pc + 2#16) :: s.stack)).jump (addr16 nnn)) :=
  if_neg (Nat.not_le.2 h)

theorem exec_call_of_full {s : State} (nnn : Addr) (h : Config.stackDepth ≤ s.stack.length) :
    exec (.call nnn) s = .next (s.raise .stackOverflow (some (encode (.call nnn))) none) :=
  if_pos h

/-- Settles O31: the two outcomes of RET, by the stack. -/
theorem retPopsOrUnderflows : Obligations.RetPopsOrUnderflows :=
  ⟨encodedAs_encode .ret, fun _ => ⟨fun _ _ => exec_ret_of_cons, exec_ret_of_nil⟩⟩

/-- Settles O32: the instruction is the jump to the extended address. -/
theorem jumpSetsPc : Obligations.JumpSetsPc :=
  fun nnn => ⟨encodedAs_encode (.jp nnn), fun _ => rfl⟩

/-- Settles O33: the two outcomes of CALL, by the room on the stack. -/
theorem callPushesOrOverflows : Obligations.CallPushesOrOverflows :=
  fun nnn => ⟨encodedAs_encode (.call nnn), fun _ => ⟨exec_call_of_room nnn, exec_call_of_full nnn⟩⟩

/-- Settles O34: the instruction is the jump to the indexed target, whose sum does not wrap. -/
theorem indexedJumpAddsV0 : Obligations.IndexedJumpAddsV0 :=
  fun nnn => ⟨encodedAs_encode (.jpV0 nnn), fun s =>
    ⟨s.jump (indexedTarget nnn s), rfl, indexedTarget_toNat nnn s, rfl⟩⟩

/-! ## A step that jumps -/

theorem advance_of_moved {s : State} (h : s.moved = true) : s.advance = s := by
  simp [State.advance, h]

/-- A step on an instruction that sets moved is execute and the count, without the advance (R145). -/
theorem step_of_moved {s u : State} {i : Instr} (hh : s.status.halted = false) (hw : s.fetchWord = some (encode i))
    (hu : exec i s.beginStep = .next u) (hm : u.moved = true) : step s = .next u.countStep := by
  obtain ⟨-, hdecode⟩ := encodedAs_encode i
  rw [step_run hh hw (hdecode _) hu, advance_of_moved hm]

/-- A CALL with room on the stack, as one step; the count of the batch touches none of these fields. -/
theorem step_call {s : State} {nnn : Addr} (hh : s.status.halted = false)
    (hw : s.fetchWord = some (encode (.call nnn))) (hroom : s.stack.length < Config.stackDepth) :
    ∃ t, step s = .next t ∧ t.pc = addr16 nnn ∧ t.stack = (s.pc + 2#16) :: s.stack ∧ t.mem = s.mem ∧
      t.status = s.status := by
  have hexec := exec_call_of_room (s := s.beginStep) nnn hroom
  exact ⟨_, step_of_moved hh hw hexec rfl, by simp, by simp, by simp, by simp⟩

/-- A RET with an entry to pop, as one step. -/
theorem step_ret {s : State} {a : Word} {rest : List Word} (hh : s.status.halted = false)
    (hw : s.fetchWord = some (encode .ret)) (hstack : s.stack = a :: rest) :
    ∃ t, step s = .next t ∧ t.pc = a ∧ t.stack = rest ∧ t.mem = s.mem ∧ t.status = s.status := by
  have hexec := exec_ret_of_cons (s := s.beginStep) hstack
  exact ⟨_, step_of_moved hh hw hexec rfl, by simp, by simp, by simp, by simp⟩

/-- The fetch depends on PC and the memory alone (R141, R142). -/
theorem fetchWord_congr {s t : State} (hpc : t.pc = s.pc) (hmem : t.mem = s.mem) : t.fetchWord = s.fetchWord := by
  simp only [State.fetchWord, hpc, hmem]

/-- Settles O35: the CALL leaves the memory alone, so the RET is fetched at the target, and pops what it pushed. -/
theorem callThenReturn : Obligations.CallThenReturn := by
  intro s nnn hh _ _ hroom hcall hret
  obtain ⟨t, hstep, hpc, hstack, hmem, hstatus⟩ := step_call hh hcall hroom
  have hrun : t.status.halted = false := by rwa [hstatus]
  have hfetch : t.fetchWord = some (encode .ret) :=
    (fetchWord_congr (s := { s with pc := nnn.setWidth 16 }) hpc hmem).trans hret
  obtain ⟨u, hstep', hpc', hstack', -, hstatus'⟩ := step_ret hrun hfetch hstack
  exact ⟨t, u, hstep, hrun, hpc, hstep', by rwa [hstatus'], hpc', hstack'⟩

end Sys2Proof.Machine

/-! # The conditional skips: 3xnn, 4xnn, 5xy0, 9xy0, Ex9E, ExA1 -/

namespace Sys2Proof.Machine

/-! ## The shared skip (R200), by the proposition it tests -/

theorem skipIf_decide (s : State) (P : Prop) [Decidable P] :
    s.skipIf (decide P) = if P then s.jump (s.pc + 4#16) else s := by
  by_cases h : P <;> simp [State.skipIf, h]

theorem skipIf_decide_not (s : State) (P : Prop) [Decidable P] :
    s.skipIf (decide ¬P) = if P then s else s.jump (s.pc + 4#16) := by
  rw [skipIf_decide, ite_not]

theorem skipIf_not (s : State) (c : Bool) :
    s.skipIf (!c) = if c = true then s else s.jump (s.pc + 4#16) := by
  cases c <;> rfl

/-- Settles O36: both are the shared skip, on an equality and on its negation. -/
theorem immediateSkips : Obligations.ImmediateSkips :=
  fun x nn => ⟨encodedAs_encode (.seImm x nn), encodedAs_encode (.sneImm x nn), fun s =>
    ⟨congrArg Host.Outcome.next (skipIf_decide s (s.getV x = nn)),
      congrArg Host.Outcome.next (skipIf_decide_not s (s.getV x = nn))⟩⟩

/-- Settles O37: both are the shared skip, on an equality and on its negation; the decode errors are those of the
LOWNIB_POLICY. -/
theorem registerSkips : Obligations.RegisterSkips := by
  intro x y
  refine ⟨encodedAs_encode (.seReg x y), encodedAs_encode (.sneReg x y), fun n hn => ?_, fun s => ?_⟩
  · obtain ⟨-, -, hfault⟩ := lowNibblePolicy x y n
    obtain ⟨hse, hsne⟩ := hfault hn
    exact ⟨⟨_, hse⟩, ⟨_, hsne⟩⟩
  · exact ⟨congrArg Host.Outcome.next (skipIf_decide s (s.getV x = s.getV y)),
      congrArg Host.Outcome.next (skipIf_decide_not s (s.getV x = s.getV y))⟩

/-! ## The key skips -/

/-- Ex9E, its two outcomes as one next state (R205). -/
theorem exec_skp (x : Nibble) (s : State) :
    exec (.skp x) s = .next (if s.keyHit x = true then (s.jump (s.pc + 4#16)).setLatch none else s) :=
  (apply_ite Host.Outcome.next _ _ _).symm

/-- Settles O38: Ex9E by its two outcomes, ExA1 as the shared skip on the negated match. -/
theorem keySkips : Obligations.KeySkips :=
  fun x => ⟨encodedAs_encode (.skp x), encodedAs_encode (.sknp x), fun s =>
    ⟨exec_skp x s, congrArg Host.Outcome.next (skipIf_not s (s.keyHit x))⟩⟩

/-! ## The key match (R207), on numbers -/

theorem keyMatch_full8_iff (key : Nibble) (b : Byte) :
    keyMatch .full8 (some key) b = true ↔ b.toNat = key.toNat := by
  have hext : (key.setWidth 8).toNat = key.toNat := BitVec.toNat_setWidth_of_le (by decide)
  rw [keyMatch, decide_eq_true_iff, ← BitVec.toNat_inj, hext]

theorem keyMatch_low4_iff (key : Nibble) (b : Byte) :
    keyMatch .low4 (some key) b = true ↔ b.toNat % 16 = key.toNat := by
  rw [keyMatch, decide_eq_true_iff, ← BitVec.toNat_inj, BitVec.toNat_setWidth]

/-- Settles O39: an empty latch by definition, each setting by its comparison on numbers. -/
theorem keyMatchRule : Obligations.KeyMatchRule :=
  fun _ key b => ⟨rfl, keyMatch_full8_iff key b, keyMatch_low4_iff key b⟩

end Sys2Proof.Machine

/-! # Arithmetic and logic: 6xnn, 7xnn, 8xy0 to 8xy7, 8xyE, Cxnn -/

namespace Sys2Proof.Machine

/-! ## The instructions that write one register -/

/-- Settles O40: each is one register write. -/
theorem registerLoads : Obligations.RegisterLoads :=
  fun x y nn => ⟨encodedAs_encode (.ldImm x nn), encodedAs_encode (.ldReg x y), fun s =>
    ⟨⟨s.setV x nn, rfl, rfl, fun j => getV_setV s x j nn⟩,
      ⟨s.setV x (s.getV y), rfl, rfl, fun j => getV_setV s x j (s.getV y)⟩⟩⟩

/-- Settles O41: one register write, of a sum of bytes. -/
theorem addImmediateWraps : Obligations.AddImmediateWraps :=
  fun x nn => ⟨encodedAs_encode (.addImm x nn), fun s =>
    ⟨s.setV x (s.getV x + nn), rfl, rfl, by rw [getV_setV_self, BitVec.toNat_add], fun _ => getV_setV_ne s _⟩⟩

/-- Settles O42: each is one register write, of a byte known bit by bit. -/
theorem logicKeepsTheFlag : Obligations.LogicKeepsTheFlag :=
  fun x y => ⟨encodedAs_encode (.orReg x y), encodedAs_encode (.andReg x y), encodedAs_encode (.xorReg x y), fun s =>
    ⟨⟨s.setV x (s.getV x ||| s.getV y), rfl, rfl, fun _ => getV_setV_ne s _,
        fun b => by rw [getV_setV_self, BitVec.getLsbD_or]⟩,
      ⟨s.setV x (s.getV x &&& s.getV y), rfl, rfl, fun _ => getV_setV_ne s _,
        fun b => by rw [getV_setV_self, BitVec.getLsbD_and]⟩,
      ⟨s.setV x (s.getV x ^^^ s.getV y), rfl, rfl, fun _ => getV_setV_ne s _,
        fun b => by rw [getV_setV_self, BitVec.getLsbD_xor]⟩⟩⟩

/-- Settles O47: the draw, then one register write, which the draw does not disturb. -/
theorem randomByteUnderMask : Obligations.RandomByteUnderMask := by
  refine fun x nn => ⟨encodedAs_encode (.rnd x nn), fun s =>
    ⟨s.drawByte.2.setV x (s.drawByte.1 &&& nn), rfl, rfl, getV_setV_self .., ?_,
      fun _ => getV_setV_ne s.drawByte.2 _⟩⟩
  rintro rfl
  rw [getV_setV_self, BitVec.and_zero]

/-! ## Flags and results on numbers (R228 to R232) -/

@[simp] theorem flagByte_toNat (c : Bool) : (flagByte c).toNat = c.toNat := by cases c <;> rfl

theorem flagByte_decide_toNat (P : Prop) [Decidable P] : (flagByte (decide P)).toNat = if P then 1 else 0 := by
  by_cases h : P <;> simp [h]

theorem flagByte_lowBit_toNat (a : Byte) : (flagByte (lowBit a)).toNat = a.toNat % 2 := by
  rw [flagByte_toNat, lowBit, BitVec.getLsbD, Nat.toNat_testBit, pow_zero, Nat.div_one]

theorem flagByte_highBit_toNat (a : Byte) : (flagByte (highBit a)).toNat = a.toNat / 128 := by
  rw [flagByte_toNat, highBit, BitVec.getLsbD, Nat.toNat_testBit]
  omega

theorem byte_sub_toNat (a b : Byte) : (a - b).toNat = (a.toNat + 256 - b.toNat) % 256 := by
  rw [BitVec.toNat_sub]
  omega

theorem byte_shiftRight_one_toNat (a : Byte) : (a >>> 1).toNat = a.toNat / 2 := by
  rw [BitVec.toNat_ushiftRight, Nat.shiftRight_eq_div_pow, pow_one]

theorem byte_shiftLeft_one_toNat (a : Byte) : (a <<< 1).toNat = a.toNat * 2 % 256 := by
  rw [BitVec.toNat_shiftLeft, Nat.shiftLeft_eq, pow_one]

/-! ## The instructions that write a result and a flag -/

/-- Settles O43: the sum and its carry, written in the order ALU_VF_ORDER gives. -/
theorem addSetsCarry : Obligations.AddSetsCarry :=
  fun x y => ⟨encodedAs_encode (.addReg x y), fun s =>
    ⟨_, s.getV x + s.getV y, flagByte (carryFlag (s.getV x) (s.getV y)), rfl, writeResult_frame ..,
      BitVec.toNat_add .., flagByte_decide_toNat _, getV_writeResult s _ x _ _⟩⟩

/-- Settles O44: each is a difference and its NOT-borrow, written in the order ALU_VF_ORDER gives. -/
theorem subtractSetsNotBorrow : Obligations.SubtractSetsNotBorrow :=
  fun x y => ⟨encodedAs_encode (.subReg x y), encodedAs_encode (.subnReg x y), fun s =>
    ⟨⟨_, s.getV x - s.getV y, flagByte (notBorrow (s.getV x) (s.getV y)), rfl, writeResult_frame ..,
        byte_sub_toNat .., flagByte_decide_toNat _, getV_writeResult s _ x _ _⟩,
      ⟨_, s.getV y - s.getV x, flagByte (notBorrow (s.getV y) (s.getV x)), rfl, writeResult_frame ..,
        byte_sub_toNat .., flagByte_decide_toNat _, getV_writeResult s _ x _ _⟩⟩⟩

/-! ## The shifts -/

/-- A shift of a register other than VF, read at the destination, at the flag and elsewhere. -/
theorem writeShift_reads {s : State} (o : WriteOrder) {x : Nibble} (out : Byte → Bool) (sh : Byte → Byte)
    (hx : x ≠ vF) :
    (s.writeShift o x out sh).getV x = sh (s.getV x) ∧
      (s.writeShift o x out sh).getV vF = flagByte (out (s.getV x)) ∧
      ∀ j, j ≠ x → j ≠ vF → (s.writeShift o x out sh).getV j = s.getV j := by
  have read := getV_writeShift s o x out sh hx
  exact ⟨by rw [read, if_neg hx, if_pos rfl], by rw [read, if_pos rfl],
    fun j hj hf => by rw [read, if_neg hf, if_neg hj]⟩

/-- Settles O45: for x other than F the two orders of the shared shift leave the same registers. -/
theorem shiftsMoveTheBitToTheFlag : Obligations.ShiftsMoveTheBitToTheFlag := by
  refine fun x y => ⟨encodedAs_encode (.shr x y), encodedAs_encode (.shl x y), fun s hx => ⟨?_, ?_⟩⟩
  · obtain ⟨hres, hflag, hother⟩ := writeShift_reads (s := s) s.params.shiftOrder lowBit (fun a => a >>> 1) hx
    exact ⟨_, rfl, writeShift_frame .., by rw [hres, byte_shiftRight_one_toNat], by rw [hflag, flagByte_lowBit_toNat],
      hother⟩
  · obtain ⟨hres, hflag, hother⟩ := writeShift_reads (s := s) s.params.shiftOrder highBit (fun a => a <<< 1) hx
    exact ⟨_, rfl, writeShift_frame .., by rw [hres, byte_shiftLeft_one_toNat], by rw [hflag, flagByte_highBit_toNat],
      hother⟩

/-- VF after a shift of VF itself, from its old value: under flag_first the shift acts on the flag just written
(R221). -/
def shiftedFlag (o : WriteOrder) (out : Byte → Bool) (sh : Byte → Byte) (a : Byte) : Byte :=
  match o with
  | .flagFirst => sh (flagByte (out a))
  | .flagLast => flagByte (out a)

theorem getV_writeShift_vF (s : State) (o : WriteOrder) (out : Byte → Bool) (sh : Byte → Byte) (j : Nibble) :
    (s.writeShift o vF out sh).getV j = if j = vF then shiftedFlag o out sh (s.getV vF) else s.getV j := by
  by_cases hj : j = vF
  · subst hj
    cases o <;> simp [State.writeShift, shiftedFlag]
  · cases o <;> simp [State.writeShift, getV_setV_ne, hj]

/-- A flag fits in bit 0, which a right shift drops. -/
theorem flagByte_shiftRight_one_toNat (c : Bool) : (flagByte c >>> 1).toNat = 0 := by cases c <;> rfl

theorem flagByte_shiftLeft_one_toNat (c : Bool) : (flagByte c <<< 1).toNat = 2 * (flagByte c).toNat := by
  cases c <;> rfl

/-- Settles O46: VF by the two orders; every other register is kept under both. -/
theorem shiftsOfTheFlagRegister : Obligations.ShiftsOfTheFlagRegister := by
  refine fun s y => ⟨⟨_, rfl, writeShift_frame .., fun j hj => ?_, ?_⟩,
    ⟨_, rfl, writeShift_frame .., fun j hj => ?_, ?_⟩⟩
  · rw [getV_writeShift_vF, if_neg hj]
  · rw [getV_writeShift_vF, if_pos rfl]
    cases s.params.shiftOrder with
    | flagFirst => exact flagByte_shiftRight_one_toNat _
    | flagLast => exact flagByte_lowBit_toNat _
  · rw [getV_writeShift_vF, if_neg hj]
  · rw [getV_writeShift_vF, if_pos rfl]
    cases s.params.shiftOrder with
    | flagFirst => exact (flagByte_shiftLeft_one_toNat _).trans (congrArg (2 * ·) (flagByte_highBit_toNat _))
    | flagLast => exact flagByte_highBit_toNat _

end Sys2Proof.Machine

/-! # Index register and memory transfers: Annn, Fx1E, Fx29, Fx33, Fx55, Fx65 -/

namespace Sys2Proof.Machine

/-! ## Reads after a transfer that stops at the end of the memory (R89) -/

/-- Access k of n is done exactly when its address lies in the memory. -/
theorem lt_inRange_iff {s : State} {n k : Nat} : k < inRange s n ↔ k < n ∧ s.i.toNat + k ≤ 0xFFF := by
  unfold inRange
  split <;> omega

theorem boundAfter_succ (s : State) (word : Word) (n : Nat) :
    boundAfter s word (n + 1) = if s.i.toNat + n ≤ 0xFFF then s.status else boundStatus s.pc s.i word :=
  if_congr Nat.succ_le_succ_iff rfl rfl

section
variable {s t : State} {n : Nat} {val : Nat → Byte}
  (hmem : t.mem = s.mem.writeBlock s.i.toNat ((List.range' 0 (inRange s n)).map val))
include hmem

/-- Every byte of a store whose address lies in the memory is there afterwards. -/
theorem memRead_store {k : Nat} (hk : k < n) (hin : s.i.toNat + k ≤ 0xFFF) :
    t.memRead (s.i.toNat + k) = some (val k) := by
  have hdone := lt_inRange_iff.2 ⟨hk, hin⟩
  rw [State.memRead_eq _ _ hin, hmem, Memory.read_writeBlock, dif_pos (by simpa using hdone)]
  simp

theorem sameMemoryOutside_store : SameMemoryOutside s.i.toNat n s t := by
  intro a ha
  by_cases hin : a ≤ 0xFFF
  · have hle : inRange s n ≤ n := Nat.le_of_not_lt fun h => (lt_inRange_iff.1 h).1.false
    rw [State.memRead_eq _ _ hin, State.memRead_eq _ _ hin, hmem, Memory.read_writeBlock, dif_neg]
    rw [List.length_map, List.length_range']
    omega
  · have hout := Nat.lt_of_not_le hin
    rw [State.memRead_none _ _ hout, State.memRead_none _ _ hout]

end

/-! ## The digits of Fx33 (R264), on numbers -/

theorem bcdDigit_toNat (b : Byte) (k : Nat) :
    (bcdDigit b k).toNat = if k = 0 then b.toNat / 100 else if k = 1 then b.toNat / 10 % 10 else b.toNat % 10 := by
  have hb := b.isLt
  match k with
  | 0 => exact Nat.mod_eq_of_lt (by omega)
  | 1 => exact Nat.mod_eq_of_lt (by omega)
  | _ + 2 => exact Nat.mod_eq_of_lt (by omega)

/-- Settles O50: a store of the three digits. -/
theorem bcdStoresThreeDigits : Obligations.BcdStoresThreeDigits := by
  refine fun x => ⟨encodedAs_encode (.ldB x), fun s =>
    ⟨_, execLdB_eq x s, rfl, fun k b hk hin hb => ?_, sameMemoryOutside_store rfl, boundAfter_succ s _ 2⟩⟩
  cases (memRead_store rfl hk hin).symm.trans hb
  exact bcdDigit_toNat (s.getV x) k

/-- Settles O51: a store of the registers from V0 on. -/
theorem storeRegistersToMemory : Obligations.StoreRegistersToMemory := by
  refine fun x => ⟨encodedAs_encode (.stRegs x), fun s =>
    ⟨_, execStRegs_eq x s, rfl, fun j hj hin => ?_, sameMemoryOutside_store rfl, boundAfter_succ s _ x.toNat⟩⟩
  rw [memRead_store rfl (Nat.lt_succ_of_le hj) hin, BitVec.ofNat_toNat, BitVec.setWidth_eq]

/-- Settles O52: a register is loaded exactly when it is one of V0..V[x] and its address lies in the memory. -/
theorem loadRegistersFromMemory : Obligations.LoadRegistersFromMemory := by
  refine fun x => ⟨encodedAs_encode (.ldRegs x), fun s => ?_⟩
  obtain ⟨t, hexec, hframe, hread⟩ := execLdRegs_eq x s
  have hstatus := congrArg State.status hframe
  refine ⟨t, hexec, by rw [hstatus]; exact hframe, fun j hj hin => ?_, fun j hj => ?_,
    hstatus.trans (boundAfter_succ s _ x.toNat)⟩
  · rw [hread, if_pos (lt_inRange_iff.2 ⟨Nat.lt_succ_of_le hj, hin⟩), State.memRead_eq _ _ hin]
  · rw [hread, if_neg]
    rw [lt_inRange_iff]
    omega

/-! ## The index register -/

/-- Settles O48: each writes I alone; the byte added is extended without loss. -/
theorem indexLoadAndAdd : Obligations.IndexLoadAndAdd :=
  fun nnn x => ⟨encodedAs_encode (.ldI nnn), encodedAs_encode (.addI x), fun s =>
    ⟨rfl, s.setI (s.i + (s.getV x).setWidth 16), rfl, rfl, by
      rw [State.setI, BitVec.toNat_add, BitVec.toNat_setWidth_of_le (by decide)]⟩⟩

/-- The product fits 16 bits, so it is exact for every byte (R263). -/
theorem glyphAddr_toNat (b : Byte) : (glyphAddr b).toNat = b.toNat * 5 := by
  have hb := b.isLt
  rw [glyphAddr, BitVec.toNat_mul, BitVec.toNat_setWidth_of_le (by decide)]
  exact Nat.mod_eq_of_lt (show b.toNat * 5 < 65536 by omega)

/-- Settles O49: the instruction writes I alone, with the exact product. -/
theorem glyphAddressIsFiveTimes : Obligations.GlyphAddressIsFiveTimes :=
  fun x => ⟨encodedAs_encode (.ldF x), fun s =>
    ⟨s.setI (glyphAddr (s.getV x)), rfl, rfl, glyphAddr_toNat (s.getV x)⟩⟩

end Sys2Proof.Machine

/-! # Timers: Fx07, Fx15, Fx18 and the tick -/

namespace Sys2Proof.Machine

/-- Settles O54: Fx07 is one register write; the other two each write one timer. -/
theorem timerTransfers : Obligations.TimerTransfers :=
  fun x => ⟨encodedAs_encode (.ldVxDt x), encodedAs_encode (.ldDtVx x), encodedAs_encode (.ldStVx x), fun s =>
    ⟨⟨s.setV x s.dt, rfl, rfl, fun j => getV_setV s x j s.dt⟩, rfl, rfl⟩⟩

/-! ## The tick (R293, R294) -/

theorem tickByte_toNat (b : Byte) : (tickByte b).toNat = b.toNat - 1 := by
  unfold tickByte
  split
  next hzero => rw [hzero]; rfl
  next hpos => bv_omega

theorem iterate_tickByte_toNat (n : Nat) (b : Byte) : (tickByte^[n] b).toNat = b.toNat - n := by
  induction n with
  | zero => rfl
  | succ n ih => rw [Function.iterate_succ_apply', tickByte_toNat, ih, Nat.sub_sub]

/-- Neither timer sees the other: n ticks of the state are n ticks of the timer alone. -/
theorem iterate_tick_dt (n : Nat) (s : State) : (State.tick^[n] s).dt = tickByte^[n] s.dt :=
  Function.Semiconj.iterate_right (f := State.dt) tick_dt n s

theorem iterate_tick_st (n : Nat) (s : State) : (State.tick^[n] s).st = tickByte^[n] s.st :=
  Function.Semiconj.iterate_right (f := State.st) tick_st n s

theorem iterate_tick_frame (n : Nat) (s : State) :
    State.tick^[n] s = { s with dt := (State.tick^[n] s).dt, st := (State.tick^[n] s).st } := by
  induction n with
  | zero => rfl
  | succ n ih =>
    rw [Function.iterate_succ_apply']
    exact congrArg State.tick ih

/-- Settles O15: each timer counts down by itself, under a frame kept by every tick. -/
theorem timersCountDownToZero : Obligations.TimersCountDownToZero :=
  fun n s => ⟨by rw [iterate_tick_dt, iterate_tickByte_toNat], by rw [iterate_tick_st, iterate_tickByte_toNat],
    iterate_tick_frame n s⟩

/-! ## The timers over execute -/

/-- The value of DT as an instruction leaves it: only Fx15 writes DT (R291). -/
def dtAfter (i : Instr) (s : State) : Nat :=
  match i with
  | .ldDtVx x => (s.getV x).toNat
  | _ => s.dt.toNat

/-- The value of ST as an instruction leaves it: only Fx18 writes ST (R292). -/
def stAfter (i : Instr) (s : State) : Nat :=
  match i with
  | .ldStVx x => (s.getV x).toNat
  | _ => s.st.toNat

theorem exec_dt {i : Instr} {s t : State} (h : exec i s = .next t) : t.dt.toNat = dtAfter i s := by
  obtain ⟨-, -, -, hwriter, -⟩ := specialStateWriters s t i h
  unfold dtAfter
  split
  next x => cases h; rfl
  next hother =>
    have hkept : t.dt = s.dt := not_imp_comm.1 hwriter fun ⟨x, hx⟩ => hother x hx
    rw [hkept]

theorem exec_st {i : Instr} {s t : State} (h : exec i s = .next t) : t.st.toNat = stAfter i s := by
  obtain ⟨-, -, -, -, hwriter⟩ := specialStateWriters s t i h
  unfold stAfter
  split
  next x => cases h; rfl
  next hother =>
    have hkept : t.st = s.st := not_imp_comm.1 hwriter fun ⟨x, hx⟩ => hother x hx
    rw [hkept]

/-- The two instructions that write a timer do not fault. -/
theorem exec_timers_of_fault {i : Instr} {s t : State} (h : exec i s = .next t) (hh : s.status.halted = false)
    (hfault : t.status.halted = true) : t.dt = s.dt ∧ t.st = s.st := by
  cases exec_effect h with
  | delayTimer | soundTimer => cases hh.symm.trans hfault
  | _ => exact ⟨rfl, rfl⟩

/-! ## The timers over a step -/

@[simp] theorem advance_dt (s : State) : s.advance.dt = s.dt := by rw [advance_frame]
@[simp] theorem advance_st (s : State) : s.advance.st = s.st := by rw [advance_frame]

/-- The tenth step of the batch, and only it, carries the tick (R147). -/
theorem countStep_timers {s : State} (hh : s.status.halted = false) (hk : s.k < 10) :
    if s.k = 9 then
      s.countStep.k = 0 ∧ s.countStep.dt.toNat = s.dt.toNat - 1 ∧ s.countStep.st.toNat = s.st.toNat - 1
    else s.countStep.k = s.k + 1 ∧ s.countStep.dt.toNat = s.dt.toNat ∧ s.countStep.st.toNat = s.st.toNat := by
  split
  next hlast =>
    rw [countStep_of_ge hh (by omega)]
    exact ⟨rfl, tickByte_toNat s.dt, tickByte_toNat s.st⟩
  next hearlier =>
    rw [countStep_of_lt hh (by omega)]
    exact ⟨rfl, rfl, rfl⟩

/-- Settles O14: a fault keeps the timers and skips the count; otherwise the count acts on the timers as execute left
them. -/
theorem tickEndsTheTenthStep : Obligations.TickEndsTheTenthStep := by
  intro s i hh hk hrun
  obtain ⟨-, w, hw, hd⟩ := aboutToRun_fetch hrun
  obtain ⟨u, hu⟩ := exec_next i s.beginStep
  obtain ⟨-, -, huk, -⟩ := parametersAndDraws _ _ _ hu
  have hstatus : u.advance.countStep.status = u.status := by rw [countStep_status, advance_status]
  refine ⟨u.advance.countStep, step_run hh hw hd hu, fun hfault => ?_, fun hrunning => ?_⟩
  · rw [hstatus] at hfault
    rw [advance_of_halted hfault, countStep_of_halted hfault]
    exact exec_timers_of_fault (s := s.beginStep) hu hh hfault
  · rw [hstatus] at hrunning
    have hcount := countStep_timers (s := u.advance) (by rwa [advance_status]) (by rwa [advance_k, huk])
    rw [advance_k, huk, advance_dt, advance_st, exec_dt hu, exec_st hu] at hcount
    exact hcount

end Sys2Proof.Machine

/-! # Fault entry (R310 to R313) -/

namespace Sys2Proof.Machine

/-- STATUS after data accesses of a running machine that halted is the record of MemoryBound (R310). -/
theorem KeptOrBound.eq_boundStatus {s : State} {i : Instr} {q : Status} (hq : KeptOrBound s i q)
    (hh : s.status.halted = false) (hf : q.halted = true) : q = boundStatus s.pc s.i (encode i) :=
  hq.resolve_left fun hkept => by simp [hkept, hh] at hf

/-- Settles O60: of the kinds of effect, three can take MemoryBound and two are the faults of the stack; no other sets
HALTED. -/
theorem faultEntryRecord : Obligations.FaultEntryRecord := by
  intro s t i hh h hf
  cases exec_effect h with
  | callFault | retFault => exact ⟨rfl, rfl, rfl, rfl, rfl, rfl, rfl, rfl, rfl, rfl⟩
  | draw v fb q kept hq | load v q kept hq =>
    cases hq.eq_boundStatus hh hf
    exact ⟨rfl, rfl, rfl, rfl, rfl, rfl, rfl, rfl, rfl, rfl⟩
  | store m q hi hm hq =>
    cases hq.eq_boundStatus hh hf
    have hcause : ownFault i = some .memBoundData := by obtain ⟨x, rfl⟩ | ⟨x, rfl⟩ := hi <;> rfl
    exact ⟨hcause, rfl, rfl, rfl, rfl, rfl, rfl, rfl, rfl, rfl⟩
  | _ => cases hh.symm.trans hf

/-- Settles O8: a halted machine answers itself, any other its instruction step, counted. -/
theorem everyStepAnswersNext : Obligations.EveryStepAnswersNext := by
  intro s
  cases hh : s.status.halted with
  | true => exact ⟨s, step_of_halted hh⟩
  | false =>
    obtain ⟨u, hu, -⟩ := instrStep_uncounted s
    exact ⟨u.countStep, step_of_instrStep hh hu⟩

end Sys2Proof.Machine

/-! # Construction and the one load (R350 to R354) -/

namespace Sys2Proof.Machine

/-! ## Memory no write has reached -/

/-- The default font ends below 0x050, and every unlisted byte above is 00 (log 9). -/
theorem unlistedByte_of_ge {a : Nat} (h : Config.fontBytes ≤ a) : unlistedByte a = 0x00#8 :=
  List.getD_eq_default fontTable 0x00#8 h

/-- An empty memory stays empty when every byte written is what its cell reads as. -/
theorem writeBlock_nil_of_unlisted (a : Nat) (bs : List Byte)
    (h : ∀ j (hj : j < bs.length), bs[j] = unlistedByte (a + j)) : Memory.writeBlock [] a bs = [] := by
  induction bs generalizing a with
  | nil => rfl
  | cons b bs ih =>
    have hb : b = unlistedByte a := h 0 (Nat.succ_pos _)
    have hw : Memory.write [] a b = [] := if_pos hb
    rw [Memory.writeBlock, hw]
    refine ih (a + 1) fun j hj => ?_
    rw [Nat.add_assoc, Nat.add_comm 1 j]
    exact h (j + 1) (Nat.succ_lt_succ hj)

theorem writeBlock_fontTable : Memory.writeBlock [] 0 fontTable = [] := by
  refine writeBlock_nil_of_unlisted 0 fontTable fun j hj => ?_
  rw [Nat.zero_add]
  exact (List.getD_eq_getElem fontTable 0x00#8 hj).symm

/-! ## Blocks, as MemRead sees them -/

/-- Byte j of a block written inside the memory is what MemRead gives at its j-th address (R352). -/
theorem memRead_writeBlock_inside {s : State} {m : Memory} {a : Nat} {bs : List Byte}
    (hs : s.mem = m.writeBlock a bs) (hfit : a + bs.length ≤ Config.memSize) {j : Nat} (hj : j < bs.length) :
    s.memRead (a + j) = bs[j]? := by
  have hin : a ≤ a + j ∧ a + j < a + bs.length := by omega
  rw [Config.memSize] at hfit
  rw [State.memRead_eq s _ (by omega), hs, Memory.read_writeBlock, dif_pos hin, List.getElem?_eq_getElem hj]
  simp only [Nat.add_sub_cancel_left]

/-- No other address reads otherwise than before. -/
theorem sameMemoryOutside_writeBlock {s t : State} {a : Nat} {bs : List Byte}
    (ht : t.mem = s.mem.writeBlock a bs) : SameMemoryOutside a bs.length s t := by
  intro b hb
  have hout : ¬(a ≤ b ∧ b < a + bs.length) := by omega
  rw [State.memRead, State.memRead, ht, Memory.read_writeBlock, dif_neg hout]

/-! ## INIT_MEM's cells (R85) -/

/-- A cell reads as b after the listed cells are written, if they give it no other byte and one of them, or the memory
before, gives it b. -/
theorem read_writeCells {m : Memory} {cells : List Host.Cell} {a : Nat} {b : Byte}
    (honly : ∀ c, (a, c) ∈ cells → c = b) (hb : (a, b) ∈ cells ∨ m.read a = b) :
    (writeCells m cells).read a = b := by
  induction cells generalizing m with
  | nil => exact hb.resolve_left List.not_mem_nil
  | cons cell cells ih =>
    obtain ⟨d, u⟩ := cell
    refine ih (m := m.write d u) (fun c hc => honly c (List.mem_cons_of_mem _ hc)) ?_
    rw [Memory.read_write]
    by_cases hd : a = d
    · subst hd
      exact .inr ((if_pos rfl).trans (honly u List.mem_cons_self))
    · rw [if_neg hd]
      simpa [hd] using hb

theorem read_writeCells_of_not_listed {m : Memory} {cells : List Host.Cell} {a : Nat}
    (h : ∀ c, (a, c) ∉ cells) : (writeCells m cells).read a = m.read a :=
  read_writeCells (fun c hc => absurd hc (h c)) (.inr rfl)

/-- Cells inside the memory keep the canonical form. -/
theorem writeCells_wf {m : Memory} {cells : List Host.Cell} (hin : ∀ c ∈ cells, c.1 < Config.memSize)
    (h : m.wf = true) : (writeCells m cells).wf = true := by
  induction cells generalizing m with
  | nil => exact h
  | cons cell cells ih =>
    exact ih (fun c hc => hin c (List.mem_cons_of_mem _ hc))
      (Memory.write_wf m cell.1 cell.2 (hin cell List.mem_cons_self) h)

/-! ## Construction -/

theorem launch_wellFormed_iff {l : Launch} :
    l.wellFormed = true ↔
      l.font.length = Config.fontBytes ∧ ∀ c ∈ l.initMem, Config.fontBytes ≤ c.1 ∧ c.1 < Config.memSize := by
  simp [Launch.wellFormed, initMemFits]

theorem construct_mem (l : Launch) :
    (construct l).mem = writeCells (Memory.writeBlock [] 0 l.font) l.initMem := rfl

/-- Below 0x050 a constructed machine reads as the launch's font (R83, R85). -/
theorem memRead_construct_font {l : Launch} (hl : l.wellFormed = true) {a : Nat} (ha : a < 80) :
    (construct l).memRead a = l.font[a]? := by
  obtain ⟨hfont, hcells⟩ := launch_wellFormed_iff.1 hl
  have hnot : ∀ c, (a, c) ∉ l.initMem := fun c hc => absurd ha (Nat.not_lt.2 (hcells _ hc).1)
  have hlen : a < l.font.length := hfont.symm ▸ ha
  have hin : 0 ≤ a ∧ a < 0 + l.font.length := by omega
  rw [State.memRead_eq _ a (by omega), construct_mem, read_writeCells_of_not_listed hnot, Memory.read_writeBlock,
    dif_pos hin, List.getElem?_eq_getElem hlen]
  rfl

/-- A cell that INIT_MEM gives one byte reads as it (R85). -/
theorem memRead_construct_initMem {l : Launch} (hl : l.wellFormed = true) {a : Nat} {b : Byte}
    (hb : (a, b) ∈ l.initMem) (honly : ∀ c, (a, c) ∈ l.initMem → c = b) :
    (construct l).memRead a = some b := by
  obtain ⟨-, hcells⟩ := launch_wellFormed_iff.1 hl
  have ha : a < Config.memSize := (hcells _ hb).2
  rw [State.memRead_eq _ a (Nat.le_of_lt_succ ha), construct_mem, read_writeCells honly (.inl hb)]

/-- A cell above the font that INIT_MEM does not list reads as 00 (log 9). -/
theorem memRead_construct_unlisted {l : Launch} (hl : l.wellFormed = true) {a : Nat} (hlo : 80 ≤ a)
    (hhi : a ≤ 0xFFF) (hnot : ∀ c, (a, c) ∉ l.initMem) : (construct l).memRead a = some 0x00#8 := by
  obtain ⟨hfont, -⟩ := launch_wellFormed_iff.1 hl
  have hout : ¬(0 ≤ a ∧ a < 0 + l.font.length) := by rw [hfont, Config.fontBytes]; omega
  rw [State.memRead_eq _ a hhi, construct_mem, read_writeCells_of_not_listed hnot, Memory.read_writeBlock,
    dif_neg hout, Memory.read_nil, unlistedByte_of_ge hlo]

theorem construct_mem_wf {l : Launch} (hl : l.wellFormed = true) : (construct l).mem.wf = true := by
  obtain ⟨hfont, hcells⟩ := launch_wellFormed_iff.1 hl
  have hfit : 0 + l.font.length ≤ Config.memSize := by rw [hfont]; decide
  exact writeCells_wf (fun c hc => (hcells c hc).2) (Memory.writeBlock_wf [] 0 l.font hfit rfl)

/-- Settles O17: the fields stand in the construction; the memory is its font, then INIT_MEM's cells, over 00. -/
theorem constructionValues : Obligations.ConstructionValues := fun _ hl =>
  ⟨rfl, rfl, rfl, rfl, rfl, rfl, rfl, fun _ => rfl, rfl, rfl, rfl, rfl, rfl, rfl, rfl,
    fun _ ha => memRead_construct_font hl ha, fun _ _ hb honly => memRead_construct_initMem hl hb honly,
    fun _ hlo hhi hnot => memRead_construct_unlisted hl hlo hhi hnot, construct_mem_wf hl⟩

/-- Writing the default font changes no cell's reading, so the default launch leaves the memory list empty. -/
theorem construct_defaultLaunch : construct defaultLaunch = State.reset := by
  have hmem : (construct defaultLaunch).mem = [] := writeBlock_fontTable
  calc construct defaultLaunch
      = { State.reset with mem := (construct defaultLaunch).mem } := rfl
    _ = State.reset := by rw [hmem]; rfl

/-- Settles O18: the construction by its memory, the registers and the 80 font bytes evaluated, the rest of the memory
from what an unlisted address reads as. -/
theorem resetIsDefaultConstruction : Obligations.ResetIsDefaultConstruction :=
  ⟨construct_defaultLaunch, rfl, rfl, rfl, rfl, rfl, fun j => Vector.getElem_replicate j.isLt, rfl, rfl, by decide,
    fun a hlo hhi => by
      rw [State.memRead_eq _ a hhi]
      exact congrArg some (unlistedByte_of_ge hlo),
    fun a ha => State.memRead_none _ a ha⟩

/-! ## The load -/

theorem imageFits_iff {image : List Byte} : imageFits image = true ↔ image.length ≤ 3584 := by
  simp only [imageFits, decide_eq_true_eq, Config.progOrigin, Config.memSize]
  omega

theorem load_of_not_constructed {s : State} (image : List Byte) (h : s.phase ≠ .constructed) :
    load image s = .refused .loadNotAllowed := by
  rw [load, if_pos h]

theorem load_of_too_long {s : State} {image : List Byte} (hp : s.phase = .constructed)
    (h : 3584 < image.length) : load image s = .refused .imageTooLong := by
  have hfits : imageFits image = false := by rw [Bool.eq_false_iff, Ne, imageFits_iff]; omega
  rw [load, if_neg (not_not.2 hp), if_pos hfits]

theorem load_of_fits {s : State} {image : List Byte} (hp : s.phase = .constructed)
    (h : image.length ≤ 3584) :
    load image s = .next { s with mem := s.mem.writeBlock Config.progOrigin image, phase := .loaded } := by
  have hfits : ¬imageFits image = false := by simp [imageFits_iff.2 h]
  rw [load, if_neg (not_not.2 hp), if_neg hfits]

/-- The one inversion of a load: an image that fits, written as a block. -/
theorem load_eq_next {image : List Byte} {s t : State} (h : load image s = .next t) :
    image.length ≤ 3584 ∧ t = { s with mem := s.mem.writeBlock Config.progOrigin image, phase := .loaded } := by
  by_cases hp : s.phase = .constructed
  · by_cases hlen : image.length ≤ 3584
    · cases (load_of_fits hp hlen).symm.trans h
      exact ⟨hlen, rfl⟩
    · cases (load_of_too_long hp (Nat.lt_of_not_le hlen)).symm.trans h
  · cases (load_of_not_constructed image hp).symm.trans h

/-- An image of at most 3584 bytes ends inside the memory (R353). -/
theorem image_inside_memory {image : List Byte} (h : image.length ≤ 3584) :
    Config.progOrigin + image.length ≤ Config.memSize :=
  Nat.add_le_add_left h 0x200

/-- Settles O19: the load is one block written from 0x200 on; the two refusals are the load's other branches. -/
theorem loadCopiesTheImage : Obligations.LoadCopiesTheImage := by
  intro s image
  refine ⟨fun hp hlen => ⟨_, load_of_fits hp hlen, fun j hj => ?_, ?_, rfl⟩, load_of_too_long,
    load_of_not_constructed image⟩
  · exact memRead_writeBlock_inside rfl (image_inside_memory hlen) hj
  · exact sameMemoryOutside_writeBlock rfl

end Sys2Proof.Machine

/-! # The host between cycles (R321, R322, R330 to R335) -/

namespace Sys2Proof.Machine

/-! ## Each host operation, between cycles and within one -/

theorem betweenCycles_iff {s : State} : s.betweenCycles = true ↔ s.status.halted = true ∨ s.k = 0 := by
  simp [State.betweenCycles]

theorem betweenCycles_eq_false {s : State} (hh : s.status.halted = false) (hk : s.k ≠ 0) :
    s.betweenCycles = false := by
  simp [State.betweenCycles, hh, hk]

section Between

variable {s : State} (h : s.betweenCycles = true)
include h

theorem press_of_between (key : Nibble) : press key s = .next (s.setLatch (some key)) := if_pos h

theorem clearLatch_of_between : clearLatch s = .next (s.setLatch none) := if_pos h

theorem hostRead_of_between {α : Type} (view : State → α) : hostRead view s = .ok (view s) := if_pos h

theorem afterRead_of_between {α : Type} (view : State → α) : afterRead (hostRead view s) s = .next s := by
  rw [hostRead_of_between h, afterRead]

end Between

section Within

variable {s : State} (h : s.betweenCycles = false)
include h

theorem press_of_within (key : Nibble) : press key s = .refused .cycleRunning := by simp [press, h]

theorem clearLatch_of_within : clearLatch s = .refused .cycleRunning := by simp [clearLatch, h]

theorem hostRead_of_within {α : Type} (view : State → α) : hostRead view s = .error .cycleRunning := by
  simp [hostRead, h]

theorem afterRead_of_within {α : Type} (view : State → α) :
    afterRead (hostRead view s) s = .refused .cycleRunning := by
  rw [hostRead_of_within h, afterRead]

end Within

theorem cycle_of_within {s : State} (hh : s.status.halted = false) (hk : s.k ≠ 0) :
    cycle s = .refused .cycleRunning := by
  simp [cycle, hh, hk]

/-- Settles O20: each operation asks only whether a cycle runs. -/
theorem hostWritesTheLatchBetweenCycles : Obligations.HostWritesTheLatchBetweenCycles := by
  intro s key X Y
  constructor
  · intro hs
    have h := betweenCycles_iff.2 hs
    refine ⟨press_of_between h key, clearLatch_of_between h, hostRead_of_between h _, hostRead_of_between h _,
      hostRead_of_between h _, hostRead_of_between h _, ?_⟩
    rintro a (rfl | rfl | rfl) <;> exact afterRead_of_between h _
  · intro hh hk
    have h := betweenCycles_eq_false hh hk
    refine ⟨press_of_within h key, clearLatch_of_within h, cycle_of_within hh hk, hostRead_of_within h _,
      hostRead_of_within h _, hostRead_of_within h _, hostRead_of_within h _, ?_⟩
    rintro a (rfl | rfl | rfl) <;> exact afterRead_of_within h _

/-! ## The invariant over a host interaction -/

/-- What steps keep, a batch of them keeps. -/
theorem batch_keeps {P : State → Prop} (hstep : ∀ s t, P s → step s = .next t → P t) (n : Nat) {s t : State}
    (hs : P s) (h : batch n s = .next t) : P t := by
  induction n generalizing s with
  | zero => cases h; exact hs
  | succ n ih =>
    obtain ⟨u, hu⟩ := everyStepAnswersNext s
    have hPu := hstep s u hs hu
    simp only [batch, hu] at h
    split at h
    · cases h; exact hPu
    · exact ih hPu h

/-- A cycle that answers returned at once on a halted machine, or ran a batch (R147, R149). -/
theorem cycle_eq_next {s t : State} (h : cycle s = .next t) : t = s ∨ batch Config.instrPerCycle s = .next t := by
  unfold cycle at h
  split at h
  · cases h; exact .inl rfl
  · split at h
    · exact .inr h
    · cases h

theorem press_eq_next {key : Nibble} {s t : State} (h : press key s = .next t) : t = s.setLatch (some key) := by
  unfold press at h
  split at h <;> cases h
  rfl

theorem clearLatch_eq_next {s t : State} (h : clearLatch s = .next t) : t = s.setLatch none := by
  unfold clearLatch at h
  split at h <;> cases h
  rfl

/-- A host read that answers leaves the state. -/
theorem afterRead_eq_next {α : Type} {answer : Except Refusal α} {s t : State}
    (h : afterRead answer s = .next t) : t = s := by
  cases answer <;> cases h
  rfl

/-- The one inversion of a host interaction: a load, a write of the latch, nothing, or a batch of steps. -/
theorem hostStep_cases {a : HostAction} {s t : State} (h : hostStep a s = .next t) :
    (∃ image : List Byte, image.length ≤ 3584 ∧
      t = { s with mem := s.mem.writeBlock Config.progOrigin image, phase := .loaded }) ∨
    (∃ l, t = s.setLatch l) ∨ t = s ∨ batch Config.instrPerCycle s = .next t := by
  cases a with
  | load image => exact .inl ⟨image, load_eq_next h⟩
  | press key => exact .inr (.inl ⟨_, press_eq_next h⟩)
  | clearLatch => exact .inr (.inl ⟨_, clearLatch_eq_next h⟩)
  | cycle => exact .inr (.inr (cycle_eq_next h))
  | readFb | readSt | readStatus => exact .inr (.inr (.inl (afterRead_eq_next h)))

/-- Settles O24: the load writes a block inside the memory, a batch is steps, and the rest writes at most the latch. -/
theorem hostActionKeepsInv : Obligations.HostActionKeepsInv := by
  rintro s t a hs h
  obtain ⟨image, hlen, rfl⟩ | ⟨l, rfl⟩ | rfl | hbatch := hostStep_cases h
  · obtain ⟨hmem, hrest⟩ := hs
    exact ⟨Memory.writeBlock_wf _ _ _ (image_inside_memory hlen) hmem, hrest⟩
  · exact hs
  · exact hs
  · exact batch_keeps stepKeepsInv _ hs hbatch

end Sys2Proof.Machine
